-- ==== Sys2Proof/Word.lean ====
section
/-! DEFINITION. The word types of DCT8 CORE: the bus word, a block of sixty-four bytes, the register
file of sixty-four halfwords, and blocks of exact integers (rules R8, R11, R20, R63). -/

namespace Sys2Proof

/-- One 8-bit buffer entry as it is stored (R20). -/
abbrev Byte := BitVec 8

/-- One 16-bit quantization-matrix entry as it is stored (R26). -/
abbrev Half := BitVec 16

/-- One 32-bit bus word (R63). -/
abbrev Word := BitVec 32

/-- A buffer of 64 bytes: `SB`, `CB` or `PB` (R23, R24, R25). -/
abbrev Block := Vector Byte 64

/-- The quantization-matrix register file `QM` (R26). -/
abbrev Matrix := Vector Half 64

/-- A block of 64 mathematical integers, the operand and result type of the pure transforms: the rules'
pseudocode integers are unbounded (R11, R157, R186). -/
abbrev IntBlock := Fin 64 → Int

end Sys2Proof
end

