-- ==== Sys2Proof/Config.lean ====
section
/-! DEFINITION. What one build of DCT8 CORE fixes (the parameter table of rule R9), the parameters a
model takes as arguments (the datapath `NUM` and the zigzag `ZZ`; R128, R132), and the free values that
the spec leaves unspecified (R47, R300). -/

namespace Sys2Proof.Config

/-- The parameter `NUM`: which arithmetic the transforms use (R9, R128). -/
inductive Num where
  /-- Fixed point over exact integers: what this hardware does. -/
  | fx
  /-- Exact real arithmetic: the reference. -/
  | real
deriving DecidableEq, Repr

/-- `NUM = FX` for this hardware (R9). -/
def NUM : Num := .fx

/-- `F`: fraction bits of the cosine ROM (R9). -/
abbrev F : Nat := 16

/-- `G`: fraction bits of the normalisation ROM (R9). -/
abbrev G : Nat := 16

/-- `alpha(0)` (R9, R125). -/
noncomputable def ALPHA0 : ℝ := 1 / Real.sqrt 8

/-- `alpha(1)` to `alpha(7)` (R9, R125). -/
noncomputable def ALPHA1 : ℝ := 1 / 2

/-- `AW`: address bits of the window, which therefore has `2 ^ AW = 4096` bytes (R9, R61). -/
abbrev AW : Nat := 12

/-- `DW`: bits of a bus word (R9, R63). -/
abbrev DW : Nat := 32

/-- `SW`: bits of a centred sample, signed (R9, R23). -/
abbrev SW : Nat := 8

/-- `QW`: bits of a quantization-matrix entry, unsigned (R9, R26). -/
abbrev QW : Nat := 16

/-- `ID_VALUE`: what register ID reads (R9, R39). -/
def ID_VALUE : Word := 0x44435438#32

/-- A zigzag permutation with its inverse, the parameter `ZZ` (R131, R133). -/
structure Zigzag where
  /-- Natural index to zigzag position. -/
  zz  : Fin 64 → Fin 64
  /-- Zigzag position to natural index. -/
  izz : Fin 64 → Fin 64

/-- What every table a configuration supplies must satisfy (R133): the two maps are inverse to each
other, position 0 is DC, and the total frequency never decreases along the positions. -/
def Zigzag.Valid (Z : Zigzag) : Prop :=
  (∀ i, Z.izz (Z.zz i) = i) ∧ (∀ k, Z.zz (Z.izz k) = k) ∧ Z.zz 0 = 0 ∧
    ∀ k l : Fin 64, k ≤ l →
      (Z.izz k).val / 8 + (Z.izz k).val % 8 ≤ (Z.izz l).val / 8 + (Z.izz l).val % 8

/-- The two pure functions a datapath supplies: `fdctq` of R157 (result block in zigzag order and the
overflow bit) and `idctq` of R186. R128 asks for this pair as the configurable thing. -/
structure Datapath where
  fdctq : IntBlock → IntBlock → IntBlock × Bool
  idctq : IntBlock → IntBlock → IntBlock

/-- The free value of a byte of `SB`, `CB` or `PB` after a reset: "The contents of `SB`, `CB`, `PB` and
`QM` are unspecified" (R47). It has no body, so nothing can be proved of any value of it. See assumption
log entry 2. -/
opaque freeByte : Nat → Byte

/-- The free value of an entry of `QM` after a reset (R47). See assumption log entry 2. -/
opaque freeHalf : Nat → Half

end Sys2Proof.Config
end

