-- ==== Sys2Proof/Syntax.lean ====
section
/-! DEFINITION. The operations of DCT8 CORE: the seven command words and the two bus transactions of
spec/opcode_table.json, one constructor of `Instr` per row (rules R2, R100, R102, R108). -/

namespace Sys2Proof

/-- The seven commands of the opcode map (R102). -/
inductive Command where
  | nop | fwd | bwd | clrerr | clrovf | flush | srst
deriving DecidableEq, Repr

/-- One operation of CORE. A command constructor stands for the write of its command word to CMD
(R104, R111); `rd` and `wr` are the bus transactions, whose byte address is a natural number because
R61 and R75 speak of addresses at and above 0x1000 as well. -/
inductive Instr where
  | nop                                     -- C0 word 0x00000000 (R200)
  | fwd                                     -- C0 word 0x00000001 (R150)
  | bwd                                     -- C0 word 0x00000002 (R180)
  | clrerr                                  -- C0 word 0x00000003 (R201)
  | clrovf                                  -- C0 word 0x00000004 (R202)
  | flush                                   -- C0 word 0x00000005 (R203)
  | srst                                    -- C0 word 0x0000000F (R204)
  | rd (addr : Nat)                         -- T0 record, W = 0 (R60, R108)
  | wr (addr : Nat) (data : Word)           -- T0 record, W = 1 (R60, R108)
deriving DecidableEq, Repr

/-- The constructor of `Instr` that a command is. -/
def Command.toInstr : Command → Instr
  | .nop => .nop
  | .fwd => .fwd
  | .bwd => .bwd
  | .clrerr => .clrerr
  | .clrovf => .clrovf
  | .flush => .flush
  | .srst => .srst

/-- What the host puts on the bus for one transaction: the three fields that a T0 record and the pins
both carry (R88, R108). -/
structure Request where
  /-- 1 for a write, 0 for a read. -/
  write : Bool
  /-- The byte address. -/
  addr  : Nat
  /-- The write data; 0 in a read. -/
  data  : Word
deriving DecidableEq, Repr

/-- An operation as bits, in one of the two fixed formats (R100). -/
inductive Code where
  /-- Format C0: the 32-bit command word (R101). -/
  | c0 (d : BitVec 32)
  /-- Format T0: the 45-bit transaction record (R108). -/
  | t0 (t : BitVec 45)
deriving DecidableEq, Repr

end Sys2Proof
end

