-- ==== Sys2Proof/WellFormed.lean ====
section
/-! DEFINITION. Which operations the encodings can express: an address of a T0 record has 12 bits
(rules R61, R108). Every other field takes every value ("Every value of every field is legal to issue"). -/

namespace Sys2Proof

/-- The operation has an encoding: the byte address of a transaction lies in the 12-bit window. A
transaction outside it can still be put on the bus and is refused there (R75). -/
def Instr.wf : Instr → Bool
  | .nop | .fwd | .bwd | .clrerr | .clrovf | .flush | .srst => true
  | .rd addr => decide (addr < 2 ^ Config.AW)
  | .wr addr _ => decide (addr < 2 ^ Config.AW)

/-- A bus request that is a transaction: a read carries no data (R108). -/
def Request.wf (q : Request) : Bool := q.write || q.data == 0#32

end Sys2Proof
end

