-- ==== Sys2Proof/Decode.lean ====
section
/-! DEFINITION. Decoding and encoding: command words by comparison with the rows of the opcode map
(rules R101, R102, R105, R106), transaction records by their three fields (R108). -/

namespace Sys2Proof

/-- Why bits are no operation, by name. -/
inductive Reject where
  /-- A 32-bit word that is none of the seven command words (R105). -/
  | illegalCommand (d : BitVec 32)
  /-- A read record with `DATA` other than 0, which "is not a record" (R108). -/
  | readWithData (data : BitVec 32)
deriving DecidableEq, Repr

/-- One row of the opcode map: a command word, the mask under which it is compared, the command. -/
structure CommandRow where
  pattern : BitVec 32
  mask    : BitVec 32
  command : Command
deriving DecidableEq, Repr

/-- The opcode map (R102): "each is the full 32-bit word (so `match` = the value, `mask` = 0xFFFFFFFF)". -/
def commandRows : List CommandRow :=
  [ ⟨0x00000000#32, 0xFFFFFFFF#32, .nop⟩,
    ⟨0x00000001#32, 0xFFFFFFFF#32, .fwd⟩,
    ⟨0x00000002#32, 0xFFFFFFFF#32, .bwd⟩,
    ⟨0x00000003#32, 0xFFFFFFFF#32, .clrerr⟩,
    ⟨0x00000004#32, 0xFFFFFFFF#32, .clrovf⟩,
    ⟨0x00000005#32, 0xFFFFFFFF#32, .flush⟩,
    ⟨0x0000000F#32, 0xFFFFFFFF#32, .srst⟩ ]

/-- The row matches the word under its mask (R106). -/
def CommandRow.matchesWord (r : CommandRow) (d : BitVec 32) : Bool := d &&& r.mask == r.pattern

/-- The command a word is, if any: "compare the whole word with each row's `match` under `mask`" (R106). -/
def decodeCommand (d : BitVec 32) : Option Command :=
  (commandRows.find? fun r => r.matchesWord d).map CommandRow.command

/-- The fields of a transaction record: bit 44 `W`, bits 43:32 `ADDR`, bits 31:0 `DATA` (R108). -/
def Request.ofRecord (t : BitVec 45) : Request where
  write := t.getLsbD 44
  addr  := (t.extractLsb' 32 12).toNat
  data  := t.extractLsb' 0 32

/-- The write of a word to CMD, which is how a command is issued (R36, R111). -/
def Request.ofCommandWord (d : BitVec 32) : Request where
  write := true
  addr  := 0
  data  := d

/-- The transaction a bus request is. A read with data is no transaction: "a listing tool rejects it; the
hardware has no such input" (R108). -/
def decodeRequest (q : Request) : Except Reject Instr :=
  if q.write then .ok (.wr q.addr q.data)
  else if q.data = 0#32 then .ok (.rd q.addr)
  else .error (.readWithData q.data)

/-- The operation that bits of either format are (R100). Total: every word and every record decodes to
one operation or is rejected by name. -/
def decode : Code → Except Reject Instr
  | .c0 d =>
    match decodeCommand d with
    | some c => .ok c.toInstr
    | none => .error (.illegalCommand d)
  | .t0 t => decodeRequest (Request.ofRecord t)

/-- The format and the bits behind a row of spec/opcode_table.json: rows of at most 32 bits are command
words, wider ones are transaction records (R100). -/
def codeOfTableWord (nbits w : Nat) : Option Code :=
  if nbits ≤ 32 then
    if w < 2 ^ 32 then some (.c0 (BitVec.ofNat 32 w)) else none
  else
    if w < 2 ^ 45 then some (.t0 (BitVec.ofNat 45 w)) else none

/-- The instruction the decoder reads from a row's bits, numbered as spec/opcode_table.json numbers them. -/
def decodeTableWord (nbits w : Nat) : Option Instr :=
  match codeOfTableWord nbits w with
  | some c => (decode c).toOption
  | none => none

/-- The bus request that issues a row's bits: a command word is written to CMD (R111), a record carries
its own fields (R108). -/
def requestOfTableWord (nbits w : Nat) : Request :=
  if nbits ≤ 32 then Request.ofCommandWord (BitVec.ofNat 32 w)
  else Request.ofRecord (BitVec.ofNat 45 w)

/-- The 45 bits `{W, ADDR, DATA}` of a transaction record (R108). -/
def encodeRecord (w : Bool) (addr : Nat) (data : BitVec 32) : BitVec 45 :=
  BitVec.ofBool w ++ BitVec.ofNat 12 addr ++ data

/-- The command word of a command (R102). -/
def encodeCommand : Command → BitVec 32
  | .nop => 0x00000000#32
  | .fwd => 0x00000001#32
  | .bwd => 0x00000002#32
  | .clrerr => 0x00000003#32
  | .clrovf => 0x00000004#32
  | .flush => 0x00000005#32
  | .srst => 0x0000000F#32

/-- The encoding of a well-formed operation (R102, R108). -/
def encode : Instr → Code
  | .nop => .c0 (encodeCommand .nop)
  | .fwd => .c0 (encodeCommand .fwd)
  | .bwd => .c0 (encodeCommand .bwd)
  | .clrerr => .c0 (encodeCommand .clrerr)
  | .clrovf => .c0 (encodeCommand .clrovf)
  | .flush => .c0 (encodeCommand .flush)
  | .srst => .c0 (encodeCommand .srst)
  | .rd addr => .t0 (encodeRecord false addr 0#32)
  | .wr addr data => .t0 (encodeRecord true addr data)

end Sys2Proof
end

