-- ==== Sys2Proof/Machine/Numeric.lean ====
section
/-! DEFINITION. The arithmetic primitives of rules R12 and R15 over mathematical integers. -/

namespace Sys2Proof.Machine

/-- `s8(b)`: an 8-bit pattern read as two's complement (R12). -/
def s8 (b : Byte) : Int := if b.toNat < 128 then b.toNat else (b.toNat : Int) - 256

/-- `u8(v)`: the 8-bit pattern `v mod 256` of an integer (R12). -/
def u8 (v : Int) : Byte := BitVec.ofNat 8 (v % 256).toNat

/-- `clamp(v, lo, hi)` (R15). -/
def clamp (v lo hi : Int) : Int := if v < lo then lo else if v > hi then hi else v

/-- `sat8(v) = clamp(v, -128, 127)` (R15, R156). -/
def sat8 (v : Int) : Int := clamp v (-128) 127

/-- `sign(n)`, with `sign(0) = +1` (R15). -/
def sgn (n : Int) : Int := if n < 0 then -1 else 1

/-- `rhaq(n, d) = sign(n) * floor((2*|n| + d) / (2*d))`: `n / d` rounded to the nearest integer, ties away
from zero (R15). -/
def rhaq (n : Int) (d : Nat) : Int := sgn n * (((2 * n.natAbs + d) / (2 * d) : Nat) : Int)

/-- The sum of a function over the indices 0 to 7. -/
def sum8 (f : Fin 8 → Int) : Int := f 0 + f 1 + f 2 + f 3 + f 4 + f 5 + f 6 + f 7

/-- `sum_{a,b} e`: the sum over all 64 index pairs (R14). -/
def sum64 (f : Fin 8 → Fin 8 → Int) : Int := sum8 fun a => sum8 fun b => f a b

/-- The natural index `8*a + b` of the pair `[a][b]` (R13). -/
def natural (a b : Fin 8) : Fin 64 := ⟨8 * a.val + b.val, by omega⟩

/-- The row (first index) of a natural index (R13). -/
def rowOf (i : Fin 64) : Fin 8 := ⟨i.val / 8, by omega⟩

/-- The column (second index) of a natural index (R13). -/
def colOf (i : Fin 64) : Fin 8 := ⟨i.val % 8, by omega⟩

/-- The 64 indices in increasing order. -/
def indices : List (Fin 64) := List.finRange 64

/-- A vector of 64 entries from its entry function. -/
def tabulate {α : Type} (f : Fin 64 → α) : Vector α 64 := 
  ⟨(List.ofFn f).toArray, by rw [List.size_toArray, List.length_ofFn]⟩

end Sys2Proof.Machine
end

