-- ==== Sys2Proof/Machine/State.lean ====
section
/-! DEFINITION. The state of the machine as plain data: the twelve components of one CORE instance
(rule R20), the host's pending bus inputs, the trace of responses, and the counter behind the free
values. The state after reset (rules R47, R290). -/

namespace Sys2Proof.Machine

/-- The fault cause, "exactly the six values 0 to 5" (R250; U14 of 93_implementation_defined.md). -/
inductive Cause where
  /-- 0: no fault recorded. -/
  | none
  /-- 1: a word written to CMD is no command (R252). -/
  | illegalCmd
  /-- 2: some `QM` entry was never written (R253). -/
  | qmUnset
  /-- 3: some `QM` entry is 0 (R254). -/
  | qmZero
  /-- 4: some word of `SB` is not valid (R255). -/
  | sbIncomplete
  /-- 5: some word of `CB` is not valid (R256). -/
  | cbIncomplete
deriving DecidableEq, Repr

/-- The response of a transaction (R60). -/
inductive Resp where
  | okay
  | error
deriving DecidableEq, Repr

/-- What a transaction answers: "`Response` is `(data, resp)` for a read and `resp` for a write" (R309). -/
inductive Response where
  | read (data : Word) (resp : Resp)
  | write (resp : Resp)
deriving DecidableEq, Repr

/-- What the outside world does to CORE: a bus transaction, or a pulse of the reset input. "There is ...
no environment input other than the transaction stream and reset" (R309). -/
inductive Input where
  | transfer (q : Request)
  | reset
deriving DecidableEq, Repr

/-- The architectural state of one CORE instance: "exactly these twelve components" (R20). -/
structure Engine where
  /-- `SB`: centred samples, natural order, two's complement (R23). -/
  sb    : Block
  /-- `CB`: quantized coefficients, zigzag order, two's complement (R24). -/
  cb    : Block
  /-- `PB`: reconstructed intensities, natural order, unsigned (R25). -/
  pb    : Block
  /-- `QM`: the quantization matrix, natural order, unsigned (R26). -/
  qm    : Matrix
  /-- `SBM[15:0]`: which words of `SB` are valid (R28). -/
  sbm   : BitVec 16
  /-- `CBM[15:0]`: which words of `CB` are valid (R28). -/
  cbm   : BitVec 16
  /-- `PBV`: `PB` holds the result of a BWD (R28). -/
  pbv   : Bool
  /-- `QMM[63:0]`: which entries of `QM` have been written (R28). -/
  qmm   : BitVec 64
  /-- `ERR`: the fault state (R30). -/
  err   : Bool
  /-- `OVF`: sticky record of saturation (R31). -/
  ovf   : Bool
  /-- `CAUSE[3:0]` (R33). -/
  cause : Cause
  /-- `INFO[31:0]` (R33). -/
  info  : Word
deriving DecidableEq, Repr

/-- The machine: one instance, the bus inputs it has not yet accepted (oldest first; R80, R112), the
responses it has given (newest first; R112), and the model's own counter from which the free values of
a reset are drawn (assumption log entry 2). -/
structure State where
  eng     : Engine
  pending : List Input
  trace   : List Response
  freeIx  : Nat
deriving DecidableEq, Repr

/-- Why the machine stops. -/
inductive Fault where
  /-- Raised by `step` for a read that carries data: no transaction at all ("the hardware has no such
  input", R108). Safe: the machine stops where the spec gives nothing to do. -/
  | notATransaction
deriving DecidableEq, Repr

/-- Why an operation has no meaning. -/
inductive Refusal where
  /-- Raised by an arm of `exec` whose operation has no meaning yet. No arm does. Safe. -/
  | notModelled (mnemonic : String)
deriving DecidableEq, Repr

/-- What a step or a meaning answers. -/
abbrev Result := Host.Outcome State Fault Refusal

/-- One instance after reset (R47, R290). The four buffers are unspecified there; zero is assumption log
entry 1 ("A model may hold any value there (zero is fine) and no claim can depend on it", R47). -/
def Engine.reset : Engine where
  sb    := Vector.replicate 64 0#8
  cb    := Vector.replicate 64 0#8
  pb    := Vector.replicate 64 0#8
  qm    := Vector.replicate 64 0#16
  sbm   := 0#16
  cbm   := 0#16
  pbv   := false
  qmm   := 0#64
  err   := false
  ovf   := false
  cause := .none
  info  := 0#32

/-- The machine right after reset: no input pending, no response given, "CORE does nothing until the host
writes to it" (R302). -/
def State.reset : State where
  eng     := Engine.reset
  pending := []
  trace   := []
  freeIx  := 0

end Sys2Proof.Machine
end

