-- ==== Sys2Proof/Machine/Flags.lean ====
section
/-! DEFINITION. The valid masks, the flags derived from them, the register STATUS and the output pins
(rules R28, R30, R31, R32, R34, R37, R46, R250). -/

namespace Sys2Proof.Machine

/-- The lowest bit of a mask that is 0, if any: what the faults QM_UNSET, SB_INCOMPLETE and CB_INCOMPLETE
report (R250). -/
def lowestClear {w : Nat} (m : BitVec w) : Option (Fin w) := (List.finRange w).find? fun i => !m.getLsbD i

/-- A buffer is full when all its mask bits are 1 (R28). -/
def fullMask {w : Nat} (m : BitVec w) : Bool := m == BitVec.allOnes w

/-- `QMV = (QMM = 0xFFFF_FFFF_FFFF_FFFF)` (R32). -/
def Engine.qmv (e : Engine) : Bool := fullMask e.qmm

/-- `SBV = (SBM = 0xFFFF)` (R32). -/
def Engine.sbv (e : Engine) : Bool := fullMask e.sbm

/-- `CBV = (CBM = 0xFFFF)` (R32). -/
def Engine.cbv (e : Engine) : Bool := fullMask e.cbm

/-- The code of a fault cause (R250). -/
def causeCode : Cause → BitVec 4
  | .none => 0
  | .illegalCmd => 1
  | .qmUnset => 2
  | .qmZero => 3
  | .sbIncomplete => 4
  | .cbIncomplete => 5

/-- STATUS: `ERR + 2*OVF + 4*QMV + 8*SBV + 16*CBV + 32*PBV` (R37). -/
def Engine.status (e : Engine) : Word :=
  BitVec.ofNat 32 (e.err.toNat + 2 * e.ovf.toNat + 4 * e.qmv.toNat + 8 * e.sbv.toNat + 16 * e.cbv.toNat
    + 32 * e.pbv.toNat)

/-- The output pin `fault` is the level of `ERR` (R46, R268). -/
def Engine.faultPin (e : Engine) : Bool := e.err

/-- The output pin `ovf` is the level of `OVF` (R46, R268). -/
def Engine.ovfPin (e : Engine) : Bool := e.ovf

/-- Setting bit `i` of a mask: the entry or word it guards has been written (R29). -/
def setMask {w : Nat} (m : BitVec w) (i : Fin w) : BitVec w := m ||| BitVec.twoPow w i.val

/-- `OVF <- OVF or ovf` (R150): the flag is set or left as it was. -/
def orOverflow (old new : Bool) : Bool := old || new

end Sys2Proof.Machine
end

