-- ==== Sys2Proof/Machine/Tables.lean ====
section
/-! DEFINITION. The constant tables inside CORE (rule R44): the cosine ROM (R123), the normalisation ROM
(R127) and the zigzag permutation with its inverse (R132, R133). No transaction reaches them. -/

namespace Sys2Proof.Machine

/-- The table of R123, row `m`, column `p`. -/
def cromTable : Vector (Vector Int 8) 8 :=
  #v[
    #v[65536, 64277, 60547, 54491, 46341, 36410, 25080, 12785],
    #v[65536, 54491, 25080, -12785, -46341, -64277, -60547, -36410],
    #v[65536, 36410, -25080, -64277, -46341, 12785, 60547, 54491],
    #v[65536, 12785, -60547, -36410, 46341, 54491, -25080, -64277],
    #v[65536, -12785, -60547, 36410, 46341, -54491, -25080, 64277],
    #v[65536, -36410, -25080, 64277, -46341, -12785, 60547, -54491],
    #v[65536, -54491, 25080, 12785, -46341, 64277, -60547, 36410],
    #v[65536, -64277, 60547, -54491, 46341, -36410, 25080, -12785]]

/-- `CROM[m][p] = rha(cos(π(2m+1)p/16) * 2^16)` (R123). -/
def crom (m p : Fin 8) : Int := (cromTable[m])[p]

/-- The eight magnitudes `C_0` to `C_7` of the cosine ROM; `C_8 = 0` "does not occur" (R122, R123). -/
def cromMagnitude (j : Nat) : Int :=
  #v[65536, 64277, 60547, 54491, 46341, 36410, 25080, 12785][j]?.getD 0

/-- The placing and signing of the magnitudes: with `k = ((2m+1)p) mod 32`, the folding of R122. -/
def cromFolded (m p : Fin 8) : Int :=
  let k := (2 * m.val + 1) * p.val % 32
  if k ≤ 8 then cromMagnitude k
  else if k ≤ 16 then - cromMagnitude (16 - k)
  else if k ≤ 24 then - cromMagnitude (k - 16)
  else cromMagnitude (32 - k)

/-- `NROM[p][q] = rha(alpha(p) * alpha(q) * 2^16)` (R127). -/
def nrom (p q : Fin 8) : Int :=
  if p = 0 ∧ q = 0 then 8192 else if p = 0 ∨ q = 0 then 11585 else 16384

/-- The table of R132: `ZZ[8p+q]`, row `p`, column `q`. -/
def zzTable : Vector (Vector (Fin 64) 8) 8 :=
  #v[
    #v[0, 1, 5, 6, 14, 15, 27, 28],
    #v[2, 4, 7, 13, 16, 26, 29, 42],
    #v[3, 8, 12, 17, 25, 30, 41, 43],
    #v[9, 11, 18, 24, 31, 40, 44, 53],
    #v[10, 19, 23, 32, 39, 45, 52, 54],
    #v[20, 22, 33, 38, 46, 51, 55, 60],
    #v[21, 34, 37, 47, 50, 56, 59, 61],
    #v[35, 36, 48, 49, 57, 58, 62, 63]]

/-- `ZZ`: natural index to zigzag position (R132). -/
def zz (i : Fin 64) : Fin 64 := (zzTable[rowOf i])[colOf i]

/-- The list of R133, eight positions a row. -/
def izzTable : Vector (Vector (Fin 64) 8) 8 :=
  #v[
    #v[0, 1, 8, 16, 9, 2, 3, 10],
    #v[17, 24, 32, 25, 18, 11, 4, 5],
    #v[12, 19, 26, 33, 40, 48, 41, 34],
    #v[27, 20, 13, 6, 7, 14, 21, 28],
    #v[35, 42, 49, 56, 57, 50, 43, 36],
    #v[29, 22, 15, 23, 30, 37, 44, 51],
    #v[58, 59, 52, 45, 38, 31, 39, 46],
    #v[53, 60, 61, 54, 47, 55, 62, 63]]

/-- `IZZ`: zigzag position to natural index (R133). -/
def izz (k : Fin 64) : Fin 64 := (izzTable[rowOf k])[colOf k]

/-- The zigzag permutation of this hardware (R9, R132, R133). -/
def hwZigzag : Config.Zigzag := ⟨zz, izz⟩

end Sys2Proof.Machine
end

