-- ==== Sys2Proof/Machine/Operands.lean ====
section
/-! DEFINITION. Where an address leads and what stands there: the address map (rules R61, R62, R65, R75,
R76), the packing of bytes into bus words (R64), and the pure reads and writes of every register and
buffer word (R35 to R42, R66 to R74). -/

namespace Sys2Proof.Machine

/-- The read-only control registers (R35). -/
inductive CtlReg where
  | status | cause | info | id | sbmask | cbmask | qmmaskLo | qmmaskHi
deriving DecidableEq, Repr

/-- What stands at a byte address (R62). -/
inductive Region where
  /-- The address is not a multiple of 4 (R65). -/
  | misaligned
  /-- 0x024 to 0x0FC, 0x2C0 to 0xFFC, and everything from 0x1000 on (R75). -/
  | unmapped
  /-- 0x000 (R36). -/
  | cmd
  /-- 0x004 to 0x020 (R35). -/
  | ctl (r : CtlReg)
  /-- `QM[i]` at `0x100 + 4i` (R66). -/
  | qm (i : Fin 64)
  /-- Word `w` of `SB` at `0x200 + 4w` (R68). -/
  | sb (w : Fin 16)
  /-- Word `w` of `CB` at `0x240 + 4w` (R69). -/
  | cb (w : Fin 16)
  /-- Word `w` of `PB` at `0x280 + 4w` (R71). -/
  | pb (w : Fin 16)
deriving DecidableEq, Repr

/-- The control register at an aligned offset from 0x004 to 0x020 (R35). -/
def ctlRegAt (addr : Nat) : Region :=
  if addr = 0x004 then .ctl .status
  else if addr = 0x008 then .ctl .cause
  else if addr = 0x00C then .ctl .info
  else if addr = 0x010 then .ctl .id
  else if addr = 0x014 then .ctl .sbmask
  else if addr = 0x018 then .ctl .cbmask
  else if addr = 0x01C then .ctl .qmmaskLo
  else if addr = 0x020 then .ctl .qmmaskHi
  else .unmapped

/-- The address map (R62), alignment checked before mapping (R76). -/
def region (addr : Nat) : Region :=
  if addr % 4 ≠ 0 then .misaligned
  else if addr = 0x000 then .cmd
  else if addr < 0x100 then ctlRegAt addr
  else if h : 0x100 ≤ addr ∧ addr < 0x200 then .qm ⟨(addr - 0x100) / 4, by omega⟩
  else if h : 0x200 ≤ addr ∧ addr < 0x240 then .sb ⟨(addr - 0x200) / 4, by omega⟩
  else if h : 0x240 ≤ addr ∧ addr < 0x280 then .cb ⟨(addr - 0x240) / 4, by omega⟩
  else if h : 0x280 ≤ addr ∧ addr < 0x2C0 then .pb ⟨(addr - 0x280) / 4, by omega⟩
  else .unmapped

/-- `d[8j+7 : 8j]` (R64, R68). -/
def wordByte (d : Word) (j : Nat) : Byte := d.extractLsb' (8 * j) 8

/-- Word `w` of a byte buffer: `{X[4w+3], X[4w+2], X[4w+1], X[4w]}`, the lowest entry in bits 7:0 (R64). -/
def packWord (v : Block) (w : Fin 16) : Word :=
  v[4 * w.val + 3] ++ v[4 * w.val + 2] ++ v[4 * w.val + 1] ++ v[4 * w.val]

/-- The buffer with `X[4w+j] <- d[8j+7 : 8j]` for `j` in 0 to 3 (R68, R69). -/
def unpackWord (v : Block) (w : Fin 16) (d : Word) : Block :=
  tabulate fun i => if i.val / 4 = w.val then wordByte d (i.val % 4) else v[i]

/-- A byte buffer as signed integers, the form in which FWD reads `SB` and BWD reads `CB` (R23, R24). -/
def signedBlock (v : Block) : IntBlock := fun i => s8 v[i]

/-- `QM` as integers (R26). -/
def matrixBlock (v : Matrix) : IntBlock := fun i => (v[i].toNat : Int)

/-- The byte patterns of 64 integers, the form in which FWD writes `CB` and BWD writes `PB` (R24, R25). -/
def byteBlock (f : IntBlock) : Block := tabulate fun i => u8 (f i)

/-- The lowest natural index whose `QM` entry is 0, if any (R254). -/
def lowestZero (v : Matrix) : Option (Fin 64) := indices.find? fun i => v[i] == 0#16

/-- What a control register reads (R37 to R41). -/
def ctlRead (e : Engine) : CtlReg → Word
  | .status => e.status
  | .cause => (causeCode e.cause).setWidth 32
  | .info => e.info
  | .id => Config.ID_VALUE
  | .sbmask => e.sbm.setWidth 32
  | .cbmask => e.cbm.setWidth 32
  | .qmmaskLo => e.qmm.extractLsb' 0 32
  | .qmmaskHi => e.qmm.extractLsb' 32 32

/-- The value a read of the address returns, or none where the read is refused (R62, R67, R70, R71, R72,
R75). CMD reads 0 (R36). -/
def readWord (e : Engine) (addr : Nat) : Option Word :=
  match region addr with
  | .misaligned => none
  | .unmapped => none
  | .cmd => some 0#32
  | .ctl r => some (ctlRead e r)
  | .qm i => if e.qmm.getLsbD i then some ((e.qm[i]).setWidth 32) else none
  | .sb w => if e.sbm.getLsbD w then some (packWord e.sb w) else none
  | .cb w => if e.cbm.getLsbD w then some (packWord e.cb w) else none
  | .pb w => if e.pbv then some (packWord e.pb w) else none

/-- `QM[i] <- d[15:0]`, `QMM[i] <- 1` (R66). -/
def Engine.storeQm (e : Engine) (i : Fin 64) (d : Word) : Engine :=
  { e with qm := e.qm.set i (d.extractLsb' 0 16), qmm := setMask e.qmm i }

/-- `SB[4w+j] <- d[8j+7 : 8j]`, `SBM[w] <- 1` (R68). -/
def Engine.storeSb (e : Engine) (w : Fin 16) (d : Word) : Engine :=
  { e with sb := unpackWord e.sb w d, sbm := setMask e.sbm w }

/-- `CB[4w+j] <- d[8j+7 : 8j]`, `CBM[w] <- 1` (R69). -/
def Engine.storeCb (e : Engine) (w : Fin 16) (d : Word) : Engine :=
  { e with cb := unpackWord e.cb w d, cbm := setMask e.cbm w }

/-- The instance after a buffer write, or none where the write is refused: the data word is too wide for
`QM`, or the address is read-only, unmapped or misaligned (R65, R66, R68, R69, R73, R74, R75). CMD is no
buffer: its write is a command (R36). -/
def storeWord (e : Engine) (addr : Nat) (d : Word) : Option Engine :=
  match region addr with
  | .misaligned => none
  | .unmapped => none
  | .cmd => none
  | .ctl _ => none
  | .qm i => if d.toNat < 2 ^ Config.QW then some (e.storeQm i d) else none
  | .sb w => some (e.storeSb w d)
  | .cb w => some (e.storeCb w d)
  | .pb _ => none

/-- The fault of a matrix that cannot be used, with its `INFO`: QM_UNSET before QM_ZERO (R250, R260). -/
def matrixFault (e : Engine) : Option (Cause × Word) :=
  match lowestClear e.qmm with
  | some i => some (.qmUnset, BitVec.ofNat 32 i)
  | none =>
    match lowestZero e.qm with
    | some i => some (.qmZero, BitVec.ofNat 32 i)
    | none => none

/-- The fault FWD raises, if any: the matrix first, then SB_INCOMPLETE (R150, R260). -/
def forwardFault (e : Engine) : Option (Cause × Word) :=
  match matrixFault e with
  | some f => some f
  | none =>
    match lowestClear e.sbm with
    | some w => some (.sbIncomplete, BitVec.ofNat 32 w)
    | none => none

/-- The fault BWD raises, if any: the matrix first, then CB_INCOMPLETE (R180, R260). -/
def backwardFault (e : Engine) : Option (Cause × Word) :=
  match matrixFault e with
  | some f => some f
  | none =>
    match lowestClear e.cbm with
    | some w => some (.cbIncomplete, BitVec.ofNat 32 w)
    | none => none

end Sys2Proof.Machine
end

