-- ==== Sys2Proof/Machine/Ops.lean ====
section
/-! DEFINITION. The operations every meaning is built from: answering a transaction, refusing it (rules
R60, R251, R257), entering the fault state and returning from it (R262, R266), resetting (R47, R290,
R291), accepting the next bus input (R80), and placing a program's records on the bus (R112). -/

namespace Sys2Proof.Machine

/-- The state after a response has been given. -/
def State.respond (r : Response) (s : State) : State := { s with trace := r :: s.trace }

/-- Complete a write transaction with `OKAY`. -/
def writeOkay (s : State) : Result := .next (s.respond (.write .okay))

/-- Refuse a write transaction: `ERROR`, no state change (R60, R251). -/
def refuseWrite (s : State) : Result := .next (s.respond (.write .error))

/-- Complete a read transaction with `OKAY`. -/
def readOkay (d : Word) (s : State) : Result := .next (s.respond (.read d .okay))

/-- Refuse a read transaction: data 0, `ERROR`, no state change (R60, R251). -/
def refuseRead (s : State) : Result := .next (s.respond (.read 0#32 .error))

/-- The instance in the fault state: `ERR <- 1`, `CAUSE <- c`, `INFO <- v`, nothing else (R262). -/
def Engine.faulted (e : Engine) (c : Cause) (v : Word) : Engine :=
  { e with err := true, cause := c, info := v }

/-- `raise Fault(c, v)`: fault entry as one atomic step, response `ERROR` (R262). -/
def raiseFault (c : Cause) (v : Word) (s : State) : Result :=
  .next ({ s with eng := s.eng.faulted c v }.respond (.write .error))

/-- The instance out of the fault state: `ERR`, `CAUSE` and `INFO` become 0, nothing else (R266). -/
def Engine.returned (e : Engine) : Engine := { e with err := false, cause := .none, info := 0#32 }

/-- The return from the fault state, response `OKAY` (R201, R266). -/
def returnFromFault (s : State) : Result := .next ({ s with eng := s.eng.returned }.respond (.write .okay))

/-- The instance after any reset: every mask, flag and the fault record 0; the four buffers unspecified,
drawn from the free values at `n` (R47, R290; assumption log entry 2). -/
def Engine.afterReset (n : Nat) : Engine where
  sb    := tabulate fun i => Config.freeByte (n + i.val)
  cb    := tabulate fun i => Config.freeByte (n + 64 + i.val)
  pb    := tabulate fun i => Config.freeByte (n + 128 + i.val)
  qm    := tabulate fun i => Config.freeHalf (n + i.val)
  sbm   := 0#16
  cbm   := 0#16
  pbv   := false
  qmm   := 0#64
  err   := false
  ovf   := false
  cause := .none
  info  := 0#32

/-- The reset that the reset input and SRST both cause (R290, R291). The counter moves past the free
values used, so the next reset leaves buffers unrelated to these. -/
def State.resetCore (s : State) : State :=
  { s with eng := Engine.afterReset s.freeIx, freeIx := s.freeIx + 192 }

/-- The next bus input and the state once it has been accepted; inputs are accepted in the order in which
the host issues them (R80). -/
def State.accept (s : State) : Option (Input × State) :=
  match s.pending with
  | [] => none
  | x :: rest => some (x, { s with pending := rest })

/-- Put transactions on the bus, behind those already pending (R112). -/
def State.issue (s : State) (prog : List Request) : State :=
  { s with pending := s.pending ++ prog.map Input.transfer }

/-- Put one transaction on the bus as the very next one to be accepted. -/
def State.issueNext (s : State) (q : Request) : State := { s with pending := .transfer q :: s.pending }

end Sys2Proof.Machine
end

