-- ==== Sys2Proof/Machine/Transform.lean ====
section
/-! DEFINITION. The six units as pure functions in the fixed-point datapath (`NUM = FX`): DCT-II engine,
quantizer, zigzag reindexer (R152, R154, R156, R155, R157) and un-zigzag reindexer, dequantizer, DCT-III
engine with reconstruction (R181, R182, R184, R185, R186). All arithmetic is exact (R130). -/

namespace Sys2Proof.Machine

/-- `2^48`: two cosine factors of `F` fraction bits and one normalisation factor of `G` (R152). -/
def fxScale : Nat := 2 ^ (2 * Config.F + Config.G)

/-- `acc[p][q] = sum_{m,n} S[8m+n]·CROM[m][p]·CROM[n][q]` (R152). -/
def forwardAcc (S : IntBlock) (p q : Fin 8) : Int :=
  sum64 fun m n => S (natural m n) * crom m p * crom n q

/-- `num[p][q] = NROM[p][q]·acc[p][q]`, which stands for the real value `num / 2^48` (R152). -/
def forwardNum (S : IntBlock) (p q : Fin 8) : Int := nrom p q * forwardAcc S p q

/-- `y[i] = rhaq(num[p][q], QM[i]·2^48)` for `i = 8p+q` (R154). -/
def quantize (S Q : IntBlock) (i : Fin 64) : Int :=
  rhaq (forwardNum S (rowOf i) (colOf i)) ((Q i).toNat * fxScale)

/-- `z[i] = sat8(y[i])` (R156). -/
def narrow (y : IntBlock) (i : Fin 64) : Int := sat8 (y i)

/-- `ovf`: at least one of the 64 values saturated (R156). -/
def anySaturated (y : IntBlock) : Bool := indices.any fun i => narrow y i != y i

/-- `out[k] = z[IZZ[k]]`, equivalently `out[ZZ[i]] = z[i]` (R155). -/
def zigzagFlatten (Z : Config.Zigzag) (z : IntBlock) : IntBlock := fun k => z (Z.izz k)

/-- `nat[i] = B[ZZ[i]]` (R181). -/
def unZigzag (Z : Config.Zigzag) (B : IntBlock) : IntBlock := fun i => B (Z.zz i)

/-- The forward path after the transform: quantized values narrowed, in zigzag order, with the overflow
bit (R155, R156, R157). -/
def finishForward (Z : Config.Zigzag) (y : IntBlock) : IntBlock × Bool :=
  (zigzagFlatten Z (narrow y), anySaturated y)

/-- `fdctq(S, Q)`, `NUM = FX` (R157). -/
def fdctq (Z : Config.Zigzag) (S Q : IntBlock) : IntBlock × Bool := finishForward Z (quantize S Q)

/-- `deq[i] = nat[i]·QM[i]` (R182). -/
def dequantize (Z : Config.Zigzag) (B Q : IntBlock) : IntBlock := fun i => unZigzag Z B i * Q i

/-- `acc[m][n] = sum_{p,q} NROM[p][q]·deq[8p+q]·CROM[m][p]·CROM[n][q]` (R184). -/
def backwardAcc (deq : IntBlock) (m n : Fin 8) : Int :=
  sum64 fun p q => nrom p q * deq (natural p q) * crom m p * crom n q

/-- `pix = clamp(r + 128, 0, 255)` (R185). -/
def toIntensity (r : Int) : Int := clamp (r + 128) 0 255

/-- The rounded sample `r = rhaq(acc[m][n], 2^48)` at natural index `8m+n` (R185). -/
def reconstruct (deq : IntBlock) (i : Fin 64) : Int :=
  rhaq (backwardAcc deq (rowOf i) (colOf i)) fxScale

/-- `idctq(B, Q)`, `NUM = FX` (R186). -/
def idctq (Z : Config.Zigzag) (B Q : IntBlock) : IntBlock :=
  fun i => toIntensity (reconstruct (dequantize Z B Q) i)

/-- The fixed-point datapath over a zigzag permutation (R128). -/
def fxDatapath (Z : Config.Zigzag) : Config.Datapath := ⟨fdctq Z, idctq Z⟩

/-- The datapath of this hardware: `NUM = FX` with the table of R132 (R9, R128). -/
def hwDatapath : Config.Datapath := fxDatapath hwZigzag

end Sys2Proof.Machine
end

