-- ==== Sys2Proof/Machine/Backward.lean ====
section
/-! DEFINITION. The meaning of the command BWD (rules R180, R253, R254, R256). -/

namespace Sys2Proof.Machine

/-- What a successful BWD does to the instance: `PB` gets the 64 outputs of `idctq` and becomes valid, `CB`
is consumed (R180). -/
def Engine.backward (e : Engine) : Engine :=
  { e with
    pb  := byteBlock (hwDatapath.idctq (signedBlock e.cb) (matrixBlock e.qm))
    pbv := true
    cbm := 0#16 }

/-- `BWD` (R180): refused in the fault state (R264), else the checks of R260, else the transform. -/
def execBwd (s : State) : Result :=
  if s.eng.err then refuseWrite s
  else
    match backwardFault s.eng with
    | some (c, v) => raiseFault c v s
    | none => writeOkay { s with eng := s.eng.backward }

end Sys2Proof.Machine
end

