-- ==== Sys2Proof/Machine/Control.lean ====
section
/-! DEFINITION. The meanings of the control commands NOP, CLRERR, CLROVF, FLUSH and SRST (rules R200 to
R205). -/

namespace Sys2Proof.Machine

/-- `NOP` (R200): nothing; refused in the fault state. -/
def execNop (s : State) : Result := if s.eng.err then refuseWrite s else writeOkay s

/-- `CLRERR` (R201): the return from the fault state. "Legal in both states." -/
def execClrerr (s : State) : Result := returnFromFault s

/-- The instance with `OVF` cleared (R202). -/
def Engine.clearOvf (e : Engine) : Engine := { e with ovf := false }

/-- `CLROVF` (R202): refused in the fault state. -/
def execClrovf (s : State) : Result :=
  if s.eng.err then refuseWrite s else writeOkay { s with eng := s.eng.clearOvf }

/-- The instance with its three block buffers invalidated; the stored bytes stay (R29, R203). -/
def Engine.flushed (e : Engine) : Engine := { e with sbm := 0#16, cbm := 0#16, pbv := false }

/-- `FLUSH` (R203): refused in the fault state. -/
def execFlush (s : State) : Result :=
  if s.eng.err then refuseWrite s else writeOkay { s with eng := s.eng.flushed }

/-- `SRST` (R204, R291): the reset state. "Legal in both states." -/
def execSrst (s : State) : Result := writeOkay s.resetCore

end Sys2Proof.Machine
end

