-- ==== Sys2Proof/Machine/Forward.lean ====
section
/-! DEFINITION. The meaning of the command FWD (rules R150, R253, R254, R255). -/

namespace Sys2Proof.Machine

/-- What a successful FWD does to the instance: `CB` gets the 64 outputs of `fdctq` and becomes valid, `SB`
is consumed, `OVF` is set if a coefficient saturated (R150). -/
def Engine.forward (e : Engine) : Engine :=
  let r := hwDatapath.fdctq (signedBlock e.sb) (matrixBlock e.qm)
  { e with
    cb  := byteBlock r.1
    cbm := BitVec.allOnes 16
    sbm := 0#16
    ovf := orOverflow e.ovf r.2 }

/-- `FWD` (R150): refused in the fault state (R264), else the checks of R260, else the transform. -/
def execFwd (s : State) : Result :=
  if s.eng.err then refuseWrite s
  else
    match forwardFault s.eng with
    | some (c, v) => raiseFault c v s
    | none => writeOkay { s with eng := s.eng.forward }

end Sys2Proof.Machine
end

