-- ==== Sys2Proof/Machine/Bus.lean ====
section
/-! DEFINITION. The meanings of the bus transactions RD and WR (rules R60 to R77), and the dispatch of a
word written to CMD (R104). -/

namespace Sys2Proof.Machine

/-- `RD addr` = `MemRead(addr, 4)`: "No read has a side effect at any address" (R63). -/
def execRd (addr : Nat) (s : State) : Result :=
  match readWord s.eng addr with
  | some d => readOkay d s
  | none => refuseRead s

/-- The write of a word that is no command: refused in the fault state, else ILLEGAL_CMD with `INFO` = the
word (R104, R105, R252). -/
def illegalCommand (d : Word) (s : State) : Result :=
  if s.eng.err then refuseWrite s else raiseFault .illegalCmd d s

/-- Executing `MemWrite(0x000, 4, d)` (R36, R104). -/
def writeCmd (d : Word) (s : State) : Result :=
  match decodeCommand d with
  | none => illegalCommand d s
  | some .nop => execNop s
  | some .fwd => execFwd s
  | some .bwd => execBwd s
  | some .clrerr => execClrerr s
  | some .clrovf => execClrovf s
  | some .flush => execFlush s
  | some .srst => execSrst s

/-- `WR addr, data` = `MemWrite(addr, 4, data)`: a command at CMD, else a store or a refusal (R62, R76). -/
def execWr (addr : Nat) (data : Word) (s : State) : Result :=
  match region addr with
  | .cmd => writeCmd data s
  | .misaligned | .unmapped | .ctl _ | .qm _ | .sb _ | .cb _ | .pb _ =>
    match storeWord s.eng addr data with
    | some e => writeOkay { s with eng := e }
    | none => refuseWrite s

end Sys2Proof.Machine
end

