-- ==== Sys2Proof/Machine/Dispatch.lean ====
section
/-! DEFINITION. One arm per constructor of `Instr`, each one direct call of its meaning. -/

namespace Sys2Proof.Machine

/-- What an operation does to the machine. -/
def exec (i : Instr) (s : State) : Host.Outcome State Fault Refusal :=
  match i with
  | .nop => Sys2Proof.Machine.execNop s
  | .fwd => Sys2Proof.Machine.execFwd s
  | .bwd => Sys2Proof.Machine.execBwd s
  | .clrerr => Sys2Proof.Machine.execClrerr s
  | .clrovf => Sys2Proof.Machine.execClrovf s
  | .flush => Sys2Proof.Machine.execFlush s
  | .srst => Sys2Proof.Machine.execSrst s
  | .rd addr => Sys2Proof.Machine.execRd addr s
  | .wr addr data => Sys2Proof.Machine.execWr addr data s

end Sys2Proof.Machine
end

