-- ==== Sys2Proof/Machine/Step.lean ====
section
/-! DEFINITION. The step of the machine: one bus input (rules R80, R309). -/

namespace Sys2Proof.Machine

/-- One step. The next transaction on the bus is decoded and executed; a pulse of the reset input resets
the instance (R290); with nothing on the bus the state stays the same ("if the host does nothing, the
state stays the same for ever", R307; assumption log entry 5). -/
def step (s : State) : Host.Outcome State Fault Refusal :=
  match s.accept with
  | none => .next s
  | some (.reset, t) => .next t.resetCore
  | some (.transfer q, t) =>
    match decodeRequest q with
    | .ok i => exec i t
    | .error _ => .fault .notATransaction

/-- The state with the operation of these bits as the very next transaction on the bus: a command word is
written to CMD, a record is issued as it stands (R111, R112). -/
def State.withFetchWord (s : State) (nbits w : Nat) : State := s.issueNext (requestOfTableWord nbits w)

end Sys2Proof.Machine
end

