-- ==== Sys2Proof/Machine/Reference.lean ====
section
/-! DEFINITION. The reference datapath `NUM = REAL`: the formulas of the source over exact real numbers
(rules R15, R121, R125, R126, R128, R151, R153, R156, R183, R185). "It is not computable as it stands"
(R128); no step of the machine uses it. Claims compare the fixed-point datapath with it. -/

namespace Sys2Proof.Machine

/-- `rha(x) = sign(x) * floor(|x| + 1/2)`: the nearest integer, ties away from zero (R15). -/
noncomputable def rha (x : ℝ) : Int := if x < 0 then - ⌊|x| + 1 / 2⌋ else ⌊|x| + 1 / 2⌋

/-- `cosb[m][p] = cos(π·(2m+1)·p/16)` (R121). -/
noncomputable def cosb (m p : Fin 8) : ℝ := Real.cos (Real.pi * (2 * (m.val : ℝ) + 1) * (p.val : ℝ) / 16)

/-- `alpha` (R125). -/
noncomputable def alpha (p : Fin 8) : ℝ := if p = 0 then Config.ALPHA0 else Config.ALPHA1

/-- The normalisation product `a2[p][q] = alpha(p)·alpha(q)` (R126). -/
noncomputable def normProduct (p q : Fin 8) : ℝ := alpha p * alpha q

/-- The forward transform on real samples: `coef[p][q] = alpha(p)·alpha(q)·sum_{m,n} S·cosb·cosb` (R151). -/
noncomputable def forwardReal (S : Fin 64 → ℝ) (p q : Fin 8) : ℝ :=
  alpha p * alpha q * ∑ m : Fin 8, ∑ n : Fin 8, S (natural m n) * cosb m p * cosb n q

/-- The inverse transform on real coefficients:
`smp[m][n] = sum_{p,q} alpha(p)·alpha(q)·deq·cosb·cosb` (R183). -/
noncomputable def backwardReal (D : Fin 64 → ℝ) (m n : Fin 8) : ℝ :=
  ∑ p : Fin 8, ∑ q : Fin 8, alpha p * alpha q * D (natural p q) * cosb m p * cosb n q

/-- `y[i] = rha(coef[p][q] / QM[i])` for `i = 8p+q` (R153). -/
noncomputable def quantizeReal (S Q : IntBlock) (i : Fin 64) : Int :=
  rha (forwardReal (fun j => (S j : ℝ)) (rowOf i) (colOf i) / (Q i : ℝ))

/-- `fdctq(S, Q)`, `NUM = REAL` (R157): narrowing and zigzag are those of the hardware. -/
noncomputable def fdctqReal (Z : Config.Zigzag) (S Q : IntBlock) : IntBlock × Bool :=
  finishForward Z (quantizeReal S Q)

/-- `r = rha(smp[m][n])` at natural index `8m+n` (R185). -/
noncomputable def reconstructReal (deq : IntBlock) (i : Fin 64) : Int :=
  rha (backwardReal (fun j => (deq j : ℝ)) (rowOf i) (colOf i))

/-- `idctq(B, Q)`, `NUM = REAL` (R186). -/
noncomputable def idctqReal (Z : Config.Zigzag) (B Q : IntBlock) : IntBlock :=
  fun i => toIntensity (reconstructReal (dequantize Z B Q) i)

/-- The datapath that a value of the parameter `NUM` selects (R128). -/
noncomputable def datapathOf (num : Config.Num) (Z : Config.Zigzag) : Config.Datapath :=
  match num with
  | .fx => fxDatapath Z
  | .real => ⟨fdctqReal Z, idctqReal Z⟩

end Sys2Proof.Machine
end

