-- ==== Sys2Proof/Machine/Script.lean ====
section
/-! DEFINITION. The host's side of the bus as far as the spec gives it: statements of a host script and
their expansions (rules R110, R111), and the run of a program, a finite list of transactions (R112). -/

namespace Sys2Proof.Machine

/-- A statement of a host script: the two transactions (R110) and the pseudo-instructions (R111). -/
inductive Statement where
  | wr (addr : Nat) (data : Word)
  | rd (addr : Nat)
  /-- `NOP`, `FWD`, `BWD`, `CLRERR`, `CLROVF`, `FLUSH`, `SRST`. -/
  | command (c : Command)
  | ldq (i : Fin 64) (v : Half)
  | ldqm (v : Matrix)
  | ldqall (v : Half)
  | ldsb (b : Vector Int 64)
  | ldcb (b : Vector Int 64)
  | rdcb
  | rdpb
  | rdst
deriving DecidableEq, Repr

/-- The statement is one of the syntax: "each b in -128..127" in `LDSB` and `LDCB` (R111). The ranges of `LDQ`,
`LDQM` and `LDQALL` are those of their argument types, and `WR` and `RD` take every address (R75, R110). -/
def Statement.wf : Statement → Bool
  | .ldsb b | .ldcb b => indices.all fun i => decide (-128 ≤ b[i] ∧ b[i] ≤ 127)
  | .wr _ _ | .rd _ | .command _ | .ldq _ _ | .ldqm _ | .ldqall _ | .rdcb | .rdpb | .rdst => true

/-- A write transaction. -/
def writeRequest (addr : Nat) (d : Word) : Request := ⟨true, addr, d⟩

/-- A read transaction. -/
def readRequest (addr : Nat) : Request := ⟨false, addr, 0#32⟩

/-- `WR 0x100 + 4*i, v` (R111). -/
def loadEntry (i : Fin 64) (v : Half) : Request := writeRequest (0x100 + 4 * i.val) (v.setWidth 32)

/-- The 16 writes that load a byte buffer at `base`, `w` increasing (R111). -/
def loadBytes (base : Nat) (b : Vector Int 64) : List Request :=
  (List.finRange 16).map fun w =>
    writeRequest (base + 4 * w.val) (packWord (tabulate fun i => u8 b[i]) w)

/-- The 16 reads of a byte buffer at `base`, `w` increasing (R111). -/
def readBytes (base : Nat) : List Request :=
  (List.finRange 16).map fun w => readRequest (base + 4 * w.val)

/-- The transactions a statement stands for (R110, R111). -/
def Statement.expand : Statement → List Request
  | .wr addr data => [writeRequest addr data]
  | .rd addr => [readRequest addr]
  | .command c => [writeRequest 0x000 (encodeCommand c)]
  | .ldq i v => [loadEntry i v]
  | .ldqm v => indices.map fun i => loadEntry i v[i]
  | .ldqall v => indices.map fun i => loadEntry i v
  | .ldsb b => loadBytes 0x200 b
  | .ldcb b => loadBytes 0x240 b
  | .rdcb => readBytes 0x240
  | .rdpb => readBytes 0x280
  | .rdst => [readRequest 0x004]

/-- The transactions of a script, in order. -/
def expandScript (p : List Statement) : List Request := p.flatMap Statement.expand

/-- The program that a script is: its transactions in order, or none where some statement is outside the
syntax (R110, R111). -/
def assemble (p : List Statement) : Option (List Request) :=
  if p.all Statement.wf then some (expandScript p) else none

/-- The run of a program: each transaction issued and executed in list order (R112). -/
def runProgram : List Request → State → Result
  | [], s => .next s
  | q :: rest, s =>
    match step (s.issueNext q) with
    | .next s' => runProgram rest s'
    | .fault r => .fault r
    | .refused r => .refused r

/-- The trace as R112 lists it: the results in the order of the transactions. -/
def State.results (s : State) : List Response := s.trace.reverse

end Sys2Proof.Machine
end

