-- ==== Sys2Proof/Machine/System.lean ====
section
/-! DEFINITION. A system of several instances: "the system state is the product of the instance states and
each transaction steps the one instance it addresses" (rules R86, R271, R309). `NENG` stays an argument
(R10). -/

namespace Sys2Proof.Machine

/-- `NENG` complete, independent instances, each with its own bus. -/
abbrev System (neng : Nat) := Vector State neng

/-- Every instance leaves reset by itself, in the same state (R271, R297). -/
def System.reset (neng : Nat) : System neng := Vector.replicate neng State.reset

/-- One step of the system: a step of the addressed instance. -/
def System.step {neng : Nat} (k : Fin neng) (sys : System neng) : Host.Outcome (System neng) Fault Refusal :=
  match Sys2Proof.Machine.step sys[k] with
  | .next s => .next (sys.set k s)
  | .fault r => .fault r
  | .refused r => .refused r

end Sys2Proof.Machine
end

