-- ==== Sys2Proof/Safety.lean ====
section
/-! DEFINITION. The terms in which claims speak of good states and good runs: the coherence of the fault
record (rules R33, R250), and observable agreement of two instances (R29, R45, R292). -/

namespace Sys2Proof.Machine

/-- The fault record is coherent: "When `ERR = 0`, `CAUSE = 0` and `INFO = 0`" (R33), and otherwise `INFO`
is what the table of R250 gives for the recorded cause: a word that is no command, a natural index below
64, or a word index below 16. -/
def Engine.coherent (e : Engine) : Bool :=
  match e.cause with
  | .none => !e.err && e.info == 0#32
  | .illegalCmd => e.err && (decodeCommand e.info).isNone
  | .qmUnset => e.err && decide (e.info.toNat < 64)
  | .qmZero => e.err && decide (e.info.toNat < 64)
  | .sbIncomplete => e.err && decide (e.info.toNat < 16)
  | .cbIncomplete => e.err && decide (e.info.toNat < 16)

/-- The invariant of the machine: its instance has a coherent fault record. -/
def State.Inv (s : State) : Prop := s.eng.coherent = true

/-- Two instances agree on everything observable: the masks, the flags, the fault record, and every buffer
entry whose valid bit is 1. They may differ in "the content of buffer words whose valid bit is 0" (R45). -/
structure Engine.Agree (a b : Engine) : Prop where
  sbm   : a.sbm = b.sbm
  cbm   : a.cbm = b.cbm
  pbv   : a.pbv = b.pbv
  qmm   : a.qmm = b.qmm
  err   : a.err = b.err
  ovf   : a.ovf = b.ovf
  cause : a.cause = b.cause
  info  : a.info = b.info
  qm    : ∀ i : Fin 64, a.qmm.getLsbD i = true → a.qm[i] = b.qm[i]
  sb    : ∀ i : Fin 64, a.sbm.getLsbD (i.val / 4) = true → a.sb[i] = b.sb[i]
  cb    : ∀ i : Fin 64, a.cbm.getLsbD (i.val / 4) = true → a.cb[i] = b.cb[i]
  pb    : a.pbv = true → a.pb = b.pb

/-- Two machines agree: their instances do, the same inputs are pending, the same responses were given. -/
structure State.Agree (s t : State) : Prop where
  eng     : s.eng.Agree t.eng
  pending : s.pending = t.pending
  trace   : s.trace = t.trace

/-- The transaction was executed to successful completion: its response is `OKAY`. -/
def Response.accepted : Response → Bool
  | .read _ .okay => true
  | .write .okay => true
  | .read _ .error => false
  | .write .error => false

end Sys2Proof.Machine
end

