-- ==== Sys2Proof/Certificates/Slice0/Obligations.lean ====
section
/-! DEFINITION. The statements for the provers, from the numbered rules of the spec. -/

namespace Sys2Proof.Spec
open Sys2Proof.Machine

/-- The machine after a transaction that left the instance at `e` and answered `r`: nothing else has
changed. A statement whose conclusion is `exec i s = .next (after s r e)` says the effect and the frame. -/
def after (s : State) (r : Response) (e : Engine) : State := { s with eng := e, trace := r :: s.trace }

/-- The instance in the fault state with this record, everything else as it was (R262). -/
def faultRecord (e : Engine) (c : Cause) (v : Word) : Engine := { e with err := true, cause := c, info := v }

/-- The matrix can be used: all 64 entries written, none of them 0 (R253, R254). -/
def MatrixGood (e : Engine) : Prop := e.qmm = BitVec.allOnes 64 ∧ ∀ i : Fin 64, e.qm[i] ≠ 0#16

/-- The operation issues the command: as the command itself, or as the write of its word to CMD (R111). -/
def Issues (i : Instr) (c : Command) : Prop := i = c.toInstr ∨ i = .wr 0x000 (encodeCommand c)

/-- The operation writes to CMD: as a command, or as a write transaction to offset 0x000. -/
def WritesCmd (i : Instr) : Prop := (∃ c : Command, i = c.toInstr) ∨ ∃ d, i = .wr 0x000 d

/-- The operation is a write of a good word to `QM[j]`. -/
def WritesQm (i : Instr) (j : Fin 64) : Prop := ∃ d : Word, d.toNat < 65536 ∧ i = .wr (0x100 + 4 * j.val) d

/-- The operation is a write to word `w` of `SB`. -/
def WritesSb (i : Instr) (w : Fin 16) : Prop := ∃ d : Word, i = .wr (0x200 + 4 * w.val) d

/-- The operation is a write to word `w` of `CB`. -/
def WritesCb (i : Instr) (w : Fin 16) : Prop := ∃ d : Word, i = .wr (0x240 + 4 * w.val) d

/-- The mask is the old one with bit `j` set (R29). -/
def BitSet {w : Nat} (old new : BitVec w) (j : Fin w) : Prop :=
  ∀ k : Fin w, new.getLsbD k = (decide (k = j) || old.getLsbD k)

/-- `resp` of the response of a transaction. -/
def respOf : Response → Resp
  | .read _ r => r
  | .write r => r

/-- The rounded quotient of frequency pair `(p,q)` as R152 and R154 give it, before narrowing. -/
def quotient (sb : Block) (qm : Matrix) (p q : Fin 8) : Int :=
  rhaq (nrom p q * ∑ m : Fin 8, ∑ n : Fin 8, (sb[natural m n]).toInt * crom m p * crom n q)
    ((qm[natural p q]).toNat * 2 ^ 48)

/-- The rounded sample of position `(m,n)` as R181, R182, R184 and R185 give it, before the offset. -/
def sample (cb : Block) (qm : Matrix) (m n : Fin 8) : Int :=
  rhaq (∑ p : Fin 8, ∑ q : Fin 8,
    nrom p q * ((cb[zz (natural p q)]).toInt * ((qm[natural p q]).toNat : Int)) * crom m p * crom n q) (2 ^ 48)

/-- The number of each fault cause in the table of R250. -/
def causeNumber : Cause → Nat
  | .none => 0
  | .illegalCmd => 1
  | .qmUnset => 2
  | .qmZero => 3
  | .sbIncomplete => 4
  | .cbIncomplete => 5

/-- The next bus input is a transaction that issues the command. -/
def NextIssues (s : State) (c : Command) : Prop :=
  ∃ q rest i, s.pending = .transfer q :: rest ∧ decodeRequest q = .ok i ∧ Issues i c

/-- The next bus input is a pulse of the reset input (assumption log entry 8). -/
def NextResets (s : State) : Prop := ∃ rest, s.pending = .reset :: rest

/-- Frequency pair `(p,q)` comes before `(p',q')` on the walk of R132: the anti-diagonals `p + q` in order, an
even one from the largest `p` to the smallest, an odd one from the smallest `p` to the largest. -/
def WalkedBefore (p q p' q' : Fin 8) : Prop :=
  p.val + q.val < p'.val + q'.val ∨
    p.val + q.val = p'.val + q'.val ∧ (if (p.val + q.val) % 2 = 0 then p' < p else p < p')

/-- The read-only control registers with their offsets and what they read (R35, R37 to R41, R250). -/
def controlValue (e : Engine) (a : Nat) (d : Word) : Prop :=
  (a = 0x000 ∧ d = 0#32) ∨
  (a = 0x004 ∧ d.toNat = e.err.toNat + 2 * e.ovf.toNat
    + 4 * (if e.qmm = 0xFFFFFFFFFFFFFFFF#64 then 1 else 0) + 8 * (if e.sbm = 0xFFFF#16 then 1 else 0)
    + 16 * (if e.cbm = 0xFFFF#16 then 1 else 0) + 32 * e.pbv.toNat) ∨
  (a = 0x008 ∧ d.toNat = causeNumber e.cause) ∨
  (a = 0x00C ∧ d = e.info) ∨
  (a = 0x010 ∧ d = 0x44435438#32) ∨
  (a = 0x014 ∧ d.toNat = e.sbm.toNat) ∨
  (a = 0x018 ∧ d.toNat = e.cbm.toNat) ∨
  (a = 0x01C ∧ d.toNat = e.qmm.toNat % 2 ^ 32) ∨
  (a = 0x020 ∧ d.toNat = e.qmm.toNat / 2 ^ 32)

/-- A read of the address is refused in this instance: R257 items 1, 2, 3 and 6. -/
def ReadRefused (e : Engine) (a : Nat) : Prop :=
  0xFFF < a ∨ a % 4 ≠ 0 ∨ (0x024 ≤ a ∧ a ≤ 0x0FC) ∨ (0x2C0 ≤ a ∧ a ≤ 0xFFC) ∨
  (∃ i : Fin 64, a = 0x100 + 4 * i.val ∧ e.qmm.getLsbD i = false) ∨
  (∃ w : Fin 16, a = 0x200 + 4 * w.val ∧ e.sbm.getLsbD w = false) ∨
  (∃ w : Fin 16, a = 0x240 + 4 * w.val ∧ e.cbm.getLsbD w = false) ∨
  (∃ w : Fin 16, a = 0x280 + 4 * w.val ∧ e.pbv = false)

/-- A write to the address is refused in this instance: R257 items 1 to 5 and 7. -/
def WriteRefused (e : Engine) (a : Nat) (d : Word) : Prop :=
  0xFFF < a ∨ a % 4 ≠ 0 ∨ (0x024 ≤ a ∧ a ≤ 0x0FC) ∨ (0x2C0 ≤ a ∧ a ≤ 0xFFC) ∨
  (0x004 ≤ a ∧ a ≤ 0x020) ∨ (∃ w : Fin 16, a = 0x280 + 4 * w.val) ∨
  (∃ i : Fin 64, a = 0x100 + 4 * i.val ∧ d.extractLsb' 16 16 ≠ 0#16) ∨
  (a = 0x000 ∧ e.err = true ∧ d ≠ 0x00000003#32 ∧ d ≠ 0x0000000F#32)

/-- The guards, flags and fault record have the values of the reset table (R290). -/
def ResetGuards (e : Engine) : Prop :=
  e.err = false ∧ e.ovf = false ∧ e.cause = .none ∧ e.info = 0#32 ∧ e.sbm = 0#16 ∧ e.cbm = 0#16 ∧
    e.pbv = false ∧ e.qmm = 0#64

end Sys2Proof.Spec

open Sys2Proof Sys2Proof.Machine Sys2Proof.Spec

/-! ### Encodings -/

/-- Encoding loses nothing: every well-formed operation decodes from its encoding (R101, R102, R108). -/
def Obligations.DecodeOfEncode : Prop := ∀ i : Instr, i.wf = true → decode (encode i) = .ok i

/-- Every word and record has at most one meaning, and it is well-formed: what decodes is the encoding of
what it decodes to (R102, R106, R108). -/
def Obligations.EncodeOfDecode : Prop :=
  ∀ (c : Code) (i : Instr), decode c = .ok i → i.wf = true ∧ encode i = c

/-- Words written out from the encoding vectors E1 and E3 of 95_test_vectors.md decode to what they stand
for. -/
def Obligations.SpecWordsDecode : Prop :=
  decode (.c0 0x00000001#32) = .ok .fwd ∧ decode (.c0 0x00000002#32) = .ok .bwd ∧
  decode (.c0 0x0000000F#32) = .ok .srst ∧ decode (.c0 0x00000101#32) = .error (.illegalCommand 0x101#32) ∧
  decode (.t0 0x001000000000#45) = .ok (.rd 0x010) ∧ decode (.t0 0x02BC00000000#45) = .ok (.rd 0x2BC) ∧
  decode (.t0 0x11FC00000063#45) = .ok (.wr 0x1FC 0x63#32) ∧
  decode (.t0 0x1200C2BDB7B4#45) = .ok (.wr 0x200 0xC2BDB7B4#32)

/-- R106: the command decoder compares the whole word with each row, no two rows match the same word, and a
word no row matches is illegal. -/
def Obligations.CommandRowsDecideTheWord : Prop :=
  (∀ r ∈ commandRows, r.mask = 0xFFFFFFFF#32) ∧
  (∀ (d : BitVec 32), ∀ r ∈ commandRows, ∀ r' ∈ commandRows,
    d &&& r.mask = r.pattern → d &&& r'.mask = r'.pattern → r = r') ∧
  (∀ (d : BitVec 32), ∀ r ∈ commandRows, d &&& r.mask = r.pattern → decode (.c0 d) = .ok r.command.toInstr) ∧
  (∀ d : BitVec 32, (∀ r ∈ commandRows, d &&& r.mask ≠ r.pattern) → decode (.c0 d) = .error (.illegalCommand d))

/-! ### The bus -/

/-- R65: a misaligned transaction is refused, and the refusal is the whole effect; a misaligned address
never reaches CMD. -/
def Obligations.MisalignedTransactionsRefused : Prop :=
  ∀ (a : Nat) (d : Word) (s : State), a % 4 ≠ 0 →
    exec (.rd a) s = .next (after s (.read 0#32 .error) s.eng) ∧
    exec (.wr a d) s = .next (after s (.write .error) s.eng)

/-- R75: every read and write of an unmapped address is refused, also at and above 0x1000. -/
def Obligations.UnmappedTransactionsRefused : Prop :=
  ∀ (a : Nat) (d : Word) (s : State),
    (0x024 ≤ a ∧ a ≤ 0x0FC) ∨ (0x2C0 ≤ a ∧ a ≤ 0xFFC) ∨ 0x1000 ≤ a →
    exec (.rd a) s = .next (after s (.read 0#32 .error) s.eng) ∧
    exec (.wr a d) s = .next (after s (.write .error) s.eng)

/-- R73 and R74: writes to the read-only control registers and to `PB` are refused, no state change. -/
def Obligations.ReadOnlyWritesRefused : Prop :=
  ∀ (a : Nat) (d : Word) (s : State), (0x004 ≤ a ∧ a ≤ 0x020) ∨ (0x280 ≤ a ∧ a ≤ 0x2BC) →
    exec (.wr a d) s = .next (after s (.write .error) s.eng)

/-- R66: a write to `QM[i]` is refused when `d[31:16] != 0`, and otherwise stores `d[15:0]`, sets `QMM[i]` and
answers OKAY, in the fault state as well; 0 is accepted. Every other entry, mask bit and component stays. -/
def Obligations.QmWriteStoresOrRefuses : Prop :=
  ∀ (i : Fin 64) (d : Word) (s : State),
    (d.extractLsb' 16 16 ≠ 0#16 →
      exec (.wr (0x100 + 4 * i.val) d) s = .next (after s (.write .error) s.eng)) ∧
    (d.extractLsb' 16 16 = 0#16 → ∃ (qm : Matrix) (qmm : BitVec 64),
      exec (.wr (0x100 + 4 * i.val) d) s =
        .next (after s (.write .okay) { s.eng with qm := qm, qmm := qmm }) ∧
      qm[i] = d.extractLsb' 0 16 ∧ (∀ j : Fin 64, j ≠ i → qm[j] = s.eng.qm[j]) ∧
      BitSet s.eng.qmm qmm i)

/-- R67: a read of `QM[i]` returns the entry, bits 31:16 zero, when `QMM[i] = 1`, and is refused otherwise. -/
def Obligations.QmReadReturnsValidEntry : Prop :=
  ∀ (i : Fin 64) (s : State),
    (s.eng.qmm.getLsbD i = true → ∃ d : Word, d.toNat = (s.eng.qm[i]).toNat ∧
      exec (.rd (0x100 + 4 * i.val)) s = .next (after s (.read d .okay) s.eng)) ∧
    (s.eng.qmm.getLsbD i = false →
      exec (.rd (0x100 + 4 * i.val)) s = .next (after s (.read 0#32 .error) s.eng))

/-- R68: a write to word `w` of `SB` accepts every pattern, stores `SB[4w+j] <- s8(d[8j+7 : 8j])`, sets `SBM[w]`
and answers OKAY; every other entry, mask bit and component stays. Entry `4w+j` is the sample at row
`w div 2`, column `4*(w mod 2) + j`. -/
def Obligations.SbWriteStoresFourSamples : Prop :=
  ∀ (w : Fin 16) (d : Word) (s : State), ∃ (sb : Block) (sbm : BitVec 16),
    exec (.wr (0x200 + 4 * w.val) d) s = .next (after s (.write .okay) { s.eng with sb := sb, sbm := sbm }) ∧
    (∀ j : Fin 4, (sb[4 * w.val + j.val]).toInt = (d.extractLsb' (8 * j.val) 8).toInt ∧
      4 * w.val + j.val = (natural ⟨w.val / 2, by omega⟩ ⟨4 * (w.val % 2) + j.val, by omega⟩).val) ∧
    (∀ i : Fin 64, i.val / 4 ≠ w.val → sb[i] = s.eng.sb[i]) ∧ BitSet s.eng.sbm sbm w

/-- R69: a write to word `w` of `CB` accepts every pattern, stores `CB[4w+j] <- s8(d[8j+7 : 8j])` (entry `4w+j` is
zigzag position `4w+j`), sets `CBM[w]` and answers OKAY; every other entry, mask bit and component stays. -/
def Obligations.CbWriteStoresFourCoefficients : Prop :=
  ∀ (w : Fin 16) (d : Word) (s : State), ∃ (cb : Block) (cbm : BitVec 16),
    exec (.wr (0x240 + 4 * w.val) d) s = .next (after s (.write .okay) { s.eng with cb := cb, cbm := cbm }) ∧
    (∀ j : Fin 4, (cb[4 * w.val + j.val]).toInt = (d.extractLsb' (8 * j.val) 8).toInt) ∧
    (∀ i : Fin 64, i.val / 4 ≠ w.val → cb[i] = s.eng.cb[i]) ∧ BitSet s.eng.cbm cbm w

/-- R70, with the packed word of R64: a read of word `w` of `SB` or `CB` returns the four entries, the lowest
in bits 7:0, when the mask bit is 1, and is refused otherwise; it changes nothing. -/
def Obligations.SbCbReadReturnsPackedWord : Prop :=
  ∀ (w : Fin 16) (s : State),
    (s.eng.sbm.getLsbD w = true → ∃ d : Word,
      (∀ j : Fin 4, d.extractLsb' (8 * j.val) 8 = s.eng.sb[4 * w.val + j.val]) ∧
      exec (.rd (0x200 + 4 * w.val)) s = .next (after s (.read d .okay) s.eng)) ∧
    (s.eng.sbm.getLsbD w = false →
      exec (.rd (0x200 + 4 * w.val)) s = .next (after s (.read 0#32 .error) s.eng)) ∧
    (s.eng.cbm.getLsbD w = true → ∃ d : Word,
      (∀ j : Fin 4, d.extractLsb' (8 * j.val) 8 = s.eng.cb[4 * w.val + j.val]) ∧
      exec (.rd (0x240 + 4 * w.val)) s = .next (after s (.read d .okay) s.eng)) ∧
    (s.eng.cbm.getLsbD w = false →
      exec (.rd (0x240 + 4 * w.val)) s = .next (after s (.read 0#32 .error) s.eng))

/-- R71: a read of word `w` of `PB` returns the four pixels, the lowest in bits 7:0, when `PBV = 1`, and is
refused otherwise. Entry `4w+j` is the pixel at row `w div 2`, column `4*(w mod 2) + j`. -/
def Obligations.PbReadReturnsPackedWord : Prop :=
  ∀ (w : Fin 16) (s : State),
    (s.eng.pbv = true → ∃ d : Word,
      (∀ j : Fin 4, d.extractLsb' (8 * j.val) 8 = s.eng.pb[4 * w.val + j.val] ∧
        4 * w.val + j.val = (natural ⟨w.val / 2, by omega⟩ ⟨4 * (w.val % 2) + j.val, by omega⟩).val) ∧
      exec (.rd (0x280 + 4 * w.val)) s = .next (after s (.read d .okay) s.eng)) ∧
    (s.eng.pbv = false →
      exec (.rd (0x280 + 4 * w.val)) s = .next (after s (.read 0#32 .error) s.eng))

/-- R72, with the values of R36 to R41 and the numbers R250 gives the causes: a read of a control register returns its value and OKAY, with no side
effect, in every state. -/
def Obligations.ControlRegisterReads : Prop :=
  ∀ (a : Nat) (s : State), a % 4 = 0 → a ≤ 0x020 → ∃ d : Word, controlValue s.eng a d ∧
    exec (.rd a) s = .next (after s (.read d .okay) s.eng)

/-- R63: a read has no side effect at any address, and repeating it returns the same pair; a second write of
the same word to the same buffer address changes nothing more. R60: a refused read returns data 0. -/
def Obligations.TransactionsIdempotentButCmd : Prop :=
  ∀ (a : Nat) (s : State),
    (∃ (d : Word) (r : Resp), exec (.rd a) s = .next (after s (.read d r) s.eng) ∧ (r = .error → d = 0#32) ∧
      exec (.rd a) (after s (.read d r) s.eng) =
        .next (after (after s (.read d r) s.eng) (.read d r) s.eng)) ∧
    (∀ d : Word, a ≠ 0 → ∃ (e : Engine) (r : Resp), exec (.wr a d) s = .next (after s (.write r) e) ∧
      exec (.wr a d) (after s (.write r) e) = .next (after (after s (.write r) e) (.write r) e))

/-- R80: "a read returns the value written by the latest earlier write". An accepted buffer write is what the
next read of its address returns, and every other buffer address reads as before. -/
def Obligations.BufferReadAfterWrite : Prop :=
  ∀ (a b : Nat) (d x : Word) (r : Resp) (s : State) (e : Engine), a ≠ 0 →
    exec (.wr a d) s = .next (after s (.write .okay) e) →
    (∃ s', exec (.rd a) (after s (.write .okay) e) = .next s' ∧
      s' = after (after s (.write .okay) e) (.read d .okay) e) ∧
    (0x100 ≤ b → b < 0x2C0 → b ≠ a → exec (.rd b) s = .next (after s (.read x r) s.eng) →
      exec (.rd b) (after s (.write .okay) e) = .next (after (after s (.write .okay) e) (.read x r) e))

/-- R257: the complete list of refusals. A read answers ERROR exactly in the listed cases, with data 0; a
write answers ERROR without a fault exactly in the listed cases; each leaves the instance as it was. -/
def Obligations.RefusalsAreTheListedOnes : Prop :=
  ∀ (a : Nat) (d : Word) (s : State),
    (ReadRefused s.eng a → exec (.rd a) s = .next (after s (.read 0#32 .error) s.eng)) ∧
    (¬ ReadRefused s.eng a → ∃ x, exec (.rd a) s = .next (after s (.read x .okay) s.eng)) ∧
    (WriteRefused s.eng a d → exec (.wr a d) s = .next (after s (.write .error) s.eng)) ∧
    (¬ WriteRefused s.eng a d → ∃ t, exec (.wr a d) s = .next t ∧
      (t.trace = .write .okay :: s.trace ∨
        t.trace = .write .error :: s.trace ∧ s.eng.err = false ∧ t.eng.err = true))

/-- R77: in the fault state every read and every buffer write behaves as outside it. `u` is `s` with the fault
record cleared. The registers STATUS, CAUSE and INFO show the record itself: they answer OKAY in both states,
STATUS differs in bit 0 alone, and CAUSE and INFO read the record, which is 0 outside the fault state. -/
def Obligations.BusIgnoresFaultState : Prop :=
  ∀ (a : Nat) (d : Word) (s u : State),
    u = { s with eng := { s.eng with err := false, cause := .none, info := 0#32 } } →
    (a ≠ 0 → ∃ (r : Response) (sb cb : Block) (qm : Matrix) (sbm cbm : BitVec 16) (qmm : BitVec 64),
      exec (.wr a d) s = .next (after s r
        { s.eng with sb := sb, cb := cb, qm := qm, sbm := sbm, cbm := cbm, qmm := qmm }) ∧
      exec (.wr a d) u = .next (after u r
        { u.eng with sb := sb, cb := cb, qm := qm, sbm := sbm, cbm := cbm, qmm := qmm })) ∧
    (a ≠ 0x004 → a ≠ 0x008 → a ≠ 0x00C → ∃ r : Response,
      exec (.rd a) s = .next (after s r s.eng) ∧ exec (.rd a) u = .next (after u r u.eng)) ∧
    (∃ x y : Word, exec (.rd 0x004) s = .next (after s (.read x .okay) s.eng) ∧
      exec (.rd 0x004) u = .next (after u (.read y .okay) u.eng) ∧
      y.toNat % 2 = 0 ∧ x.toNat = y.toNat + s.eng.err.toNat) ∧
    (∃ x : Word, exec (.rd 0x008) s = .next (after s (.read x .okay) s.eng) ∧
      x.toNat = causeNumber s.eng.cause) ∧
    exec (.rd 0x008) u = .next (after u (.read 0#32 .okay) u.eng) ∧
    exec (.rd 0x00C) s = .next (after s (.read s.eng.info .okay) s.eng) ∧
    exec (.rd 0x00C) u = .next (after u (.read 0#32 .okay) u.eng)

/-! ### Commands: dispatch, faults, control -/

/-- R104: the execution of a write to CMD, and that it answers OKAY exactly when a command was executed to
successful completion (which leaves `ERR = 0`, where every failure leaves `ERR = 1`). -/
def Obligations.CmdWriteDispatch : Prop :=
  ∀ (d : Word) (s : State),
    (s.eng.err = true → d = 0x3#32 → exec (.wr 0x000 d) s = exec .clrerr s) ∧
    (s.eng.err = true → d = 0xF#32 → exec (.wr 0x000 d) s = exec .srst s) ∧
    (s.eng.err = true → d ≠ 0x3#32 → d ≠ 0xF#32 →
      exec (.wr 0x000 d) s = .next (after s (.write .error) s.eng)) ∧
    (s.eng.err = false → (∀ c : Command, d ≠ encodeCommand c) →
      exec (.wr 0x000 d) s = .next (after s (.write .error) (faultRecord s.eng .illegalCmd d))) ∧
    (∀ c : Command, s.eng.err = false → d = encodeCommand c → exec (.wr 0x000 d) s = exec c.toInstr s) ∧
    (∃ (t : State) (r : Resp), exec (.wr 0x000 d) s = .next t ∧ t.trace = .write r :: s.trace ∧
      (r = .okay ↔ t.eng.err = false))

/-- R252: a word with a bit set in 31:8, or with bits 7:0 in 0x06 to 0x0E or 0x10 to 0xFF, written to CMD while
`ERR = 0`, faults ILLEGAL_CMD with `INFO` = the word; nothing else changes. -/
def Obligations.IllegalCommandFaults : Prop :=
  ∀ (d : Word) (s : State), s.eng.err = false →
    (d.extractLsb' 8 24 ≠ 0#24 ∨ (0x06 ≤ (d.extractLsb' 0 8).toNat ∧ (d.extractLsb' 0 8).toNat ≤ 0x0E) ∨
      0x10 ≤ (d.extractLsb' 0 8).toNat) →
    exec (.wr 0x000 d) s =
      .next (after s (.write .error) { s.eng with err := true, cause := .illegalCmd, info := d })

/-- R253: FWD or BWD with an unwritten `QM` entry faults QM_UNSET with `INFO` = the lowest unset natural index,
whatever else is wrong. -/
def Obligations.QmUnsetFaults : Prop :=
  ∀ (s : State) (i : Fin 64), s.eng.err = false →
    s.eng.qmm.getLsbD i = false → (∀ j : Fin 64, j < i → s.eng.qmm.getLsbD j = true) →
    exec .fwd s = .next (after s (.write .error) (faultRecord s.eng .qmUnset (BitVec.ofNat 32 i.val))) ∧
    exec .bwd s = .next (after s (.write .error) (faultRecord s.eng .qmUnset (BitVec.ofNat 32 i.val)))

/-- R254: FWD or BWD with all entries written and some entry 0 faults QM_ZERO with `INFO` = the lowest natural
index whose entry is 0, before the block buffers are looked at. -/
def Obligations.QmZeroFaults : Prop :=
  ∀ (s : State) (i : Fin 64), s.eng.err = false → s.eng.qmm = BitVec.allOnes 64 →
    s.eng.qm[i] = 0#16 → (∀ j : Fin 64, j < i → s.eng.qm[j] ≠ 0#16) →
    exec .fwd s = .next (after s (.write .error) (faultRecord s.eng .qmZero (BitVec.ofNat 32 i.val))) ∧
    exec .bwd s = .next (after s (.write .error) (faultRecord s.eng .qmZero (BitVec.ofNat 32 i.val)))

/-- R255: FWD with a good matrix and an invalid word of `SB` faults SB_INCOMPLETE with `INFO` = the lowest
invalid word index. -/
def Obligations.SbIncompleteFaults : Prop :=
  ∀ (s : State) (w : Fin 16), s.eng.err = false → MatrixGood s.eng →
    s.eng.sbm.getLsbD w = false → (∀ j : Fin 16, j < w → s.eng.sbm.getLsbD j = true) →
    exec .fwd s = .next (after s (.write .error) (faultRecord s.eng .sbIncomplete (BitVec.ofNat 32 w.val)))

/-- R256: BWD with a good matrix and an invalid word of `CB` faults CB_INCOMPLETE with `INFO` = the lowest
invalid word index. -/
def Obligations.CbIncompleteFaults : Prop :=
  ∀ (s : State) (w : Fin 16), s.eng.err = false → MatrixGood s.eng →
    s.eng.cbm.getLsbD w = false → (∀ j : Fin 16, j < w → s.eng.cbm.getLsbD j = true) →
    exec .bwd s = .next (after s (.write .error) (faultRecord s.eng .cbIncomplete (BitVec.ofNat 32 w.val)))

/-- R200: NOP does nothing and answers OKAY; with `ERR = 1` it is refused. -/
def Obligations.NopDoesNothing : Prop :=
  ∀ s : State,
    (s.eng.err = false → exec .nop s = .next (after s (.write .okay) s.eng)) ∧
    (s.eng.err = true → exec .nop s = .next (after s (.write .error) s.eng))

/-- R201: CLRERR clears `ERR`, `CAUSE` and `INFO` and nothing else, in both states. -/
def Obligations.ClrerrLeavesFaultState : Prop :=
  ∀ s : State, exec .clrerr s =
    .next (after s (.write .okay) { s.eng with err := false, cause := .none, info := 0#32 })

/-- R202: CLROVF clears `OVF` and nothing else; with `ERR = 1` it is refused. -/
def Obligations.ClrovfClearsOverflow : Prop :=
  ∀ s : State,
    (s.eng.err = false → exec .clrovf s = .next (after s (.write .okay) { s.eng with ovf := false })) ∧
    (s.eng.err = true → exec .clrovf s = .next (after s (.write .error) s.eng))

/-- R203: FLUSH clears `SBM`, `CBM` and `PBV` and nothing else, so that no word of `SB`, `CB` or `PB` can be read
afterwards; with `ERR = 1` it is refused. -/
def Obligations.FlushInvalidatesBlockBuffers : Prop :=
  ∀ s : State,
    (s.eng.err = false → ∃ t, exec .flush s = .next t ∧
      t = after s (.write .okay) { s.eng with sbm := 0#16, cbm := 0#16, pbv := false } ∧
      ∀ a : Nat, 0x200 ≤ a → a < 0x2C0 → exec (.rd a) t = .next (after t (.read 0#32 .error) t.eng)) ∧
    (s.eng.err = true → exec .flush s = .next (after s (.write .error) s.eng))

/-- R204: SRST clears every mask and flag and the fault record, in both states, and answers OKAY; the buffer
contents afterwards are unspecified (no clause speaks of them) and unreadable. Its effect is that of the
reset input, and the matrix must be loaded again before FWD or BWD. That the reset input is an event in the
stream of bus inputs is the model's choice (assumption log entry 8). -/
def Obligations.SrstResets : Prop :=
  ∀ s : State, ∃ t, exec .srst s = .next t ∧ t.trace = .write .okay :: s.trace ∧ t.pending = s.pending ∧
    ResetGuards t.eng ∧
    (∀ a : Nat, 0x100 ≤ a → a < 0x2C0 → exec (.rd a) t = .next (after t (.read 0#32 .error) t.eng)) ∧
    (∃ u, step { s with pending := .reset :: s.pending } = .next u ∧ u.eng.Agree t.eng) ∧
    exec .fwd t = .next (after t (.write .error) (faultRecord t.eng .qmUnset 0#32)) ∧
    exec .bwd t = .next (after t (.write .error) (faultRecord t.eng .qmUnset 0#32))

/-- R205: with `ERR = 0` all seven commands execute, with `ERR = 1` only CLRERR and SRST do, and the other five
and every illegal word are refused. A command executes when it is not refused: it answers OKAY, or it
raises a fault. -/
def Obligations.CommandsByFaultState : Prop :=
  ∀ (c : Command) (d : Word) (s : State),
    (s.eng.err = false ∨ c = .clrerr ∨ c = .srst → ∃ t, exec c.toInstr s = .next t ∧
      (t.trace = .write .okay :: s.trace ∨
        t.trace = .write .error :: s.trace ∧ s.eng.err = false ∧ t.eng.err = true)) ∧
    (s.eng.err = true → c ≠ .clrerr → c ≠ .srst →
      exec c.toInstr s = .next (after s (.write .error) s.eng)) ∧
    (s.eng.err = true → (∀ c' : Command, d ≠ encodeCommand c') →
      exec (.wr 0x000 d) s = .next (after s (.write .error) s.eng))

/-! ### The two computing commands -/

/-- FWD with a good matrix and a full `SB` (R150): `CB` gets the narrowed quotients in zigzag order (R152, R154,
R155, R156), `CBM` becomes full, `SB` is consumed, `OVF` is set exactly if it was set or a quotient lay
outside -128 to 127; nothing else changes. -/
def Obligations.FwdTransformsBlock : Prop :=
  ∀ s : State, s.eng.err = false → MatrixGood s.eng → s.eng.sbm = BitVec.allOnes 16 →
    ∃ (cb : Block) (ovf : Bool),
      exec .fwd s = .next (after s (.write .okay)
        { s.eng with cb := cb, cbm := BitVec.allOnes 16, sbm := 0#16, ovf := ovf }) ∧
      (∀ p q : Fin 8, (cb[zz (natural p q)]).toInt =
        max (-128) (min 127 (quotient s.eng.sb s.eng.qm p q))) ∧
      (ovf = true ↔ s.eng.ovf = true ∨
        ∃ p q : Fin 8, quotient s.eng.sb s.eng.qm p q < -128 ∨ 127 < quotient s.eng.sb s.eng.qm p q)

/-- BWD with a good matrix and a full `CB` (R180): `PB` gets the clamped intensities (R181, R182, R184, R185) and
becomes valid, `CB` is consumed; nothing else changes, `OVF` least of all. -/
def Obligations.BwdReconstructsBlock : Prop :=
  ∀ s : State, s.eng.err = false → MatrixGood s.eng → s.eng.cbm = BitVec.allOnes 16 →
    ∃ pb : Block,
      exec .bwd s = .next (after s (.write .okay) { s.eng with pb := pb, pbv := true, cbm := 0#16 }) ∧
      ∀ m n : Fin 8, ((pb[natural m n]).toNat : Int) =
        max 0 (min 255 (sample s.eng.cb s.eng.qm m n + 128))

/-- The source's "Round-trip near-identity", met with tolerance 0 (R158 (a), R187 (a)): with any good matrix, a
block of constant intensity 128 compresses to 64 zero bytes and decompresses to 64 bytes of 128. -/
def Obligations.ConstantMidGreyRoundTrip : Prop :=
  ∀ s : State, s.eng.err = false → MatrixGood s.eng → s.eng.sbm = BitVec.allOnes 16 →
    (∀ i : Fin 64, s.eng.sb[i] = 0#8) →
    ∃ t u, exec .fwd s = .next t ∧ exec .bwd t = .next u ∧
      (∀ k : Fin 64, t.eng.cb[k] = 0#8) ∧ t.eng.ovf = s.eng.ovf ∧
      (∀ i : Fin 64, u.eng.pb[i] = 128#8) ∧ u.eng.pbv = true ∧
      u.trace = .write .okay :: .write .okay :: s.trace

/-! ### Whole-machine rules -/

/-- "Every transaction in every state has exactly one defined outcome" (R300, R309): every operation answers a
next state, with one response more and the pending inputs untouched. -/
def Obligations.EveryTransactionAnswers : Prop :=
  ∀ (i : Instr) (s : State), ∃ (t : State) (r : Response),
    exec i s = .next t ∧ t.trace = r :: s.trace ∧ t.pending = s.pending

/-- R251: the two ways to fail. An ERROR response comes with no change at all (a refusal), or with a fault
entry, which only an accepted write to CMD performs and which sets `ERR`, `CAUSE`, `INFO` and nothing else. A
bus-level error is a refusal, and so is every error while `ERR = 1`. -/
def Obligations.ErrorIsRefusalOrFault : Prop :=
  ∀ (i : Instr) (s t : State) (r : Response), exec i s = .next t → t.trace = r :: s.trace →
    respOf r = .error →
    (t = after s r s.eng ∧ (∀ d x, r = .read d x → d = 0#32)) ∨
    (∃ (c : Cause) (v : Word), c ≠ .none ∧ WritesCmd i ∧ s.eng.err = false ∧
      t = after s r (faultRecord s.eng c v))

/-- R33, R265, R266: the first fault wins. While `ERR = 1` no operation changes the record except CLRERR and
SRST, which clear it; and no step changes it except one that runs CLRERR or SRST or takes the reset input
(which is an event of its own by the model's choice, assumption log entry 8). -/
def Obligations.FirstFaultWins : Prop :=
  (∀ (i : Instr) (s t : State), exec i s = .next t → s.eng.err = true →
    (t.eng.err = true ∧ t.eng.cause = s.eng.cause ∧ t.eng.info = s.eng.info) ∨
    ((Issues i .clrerr ∨ Issues i .srst) ∧ t.eng.err = false ∧ t.eng.cause = .none ∧ t.eng.info = 0#32)) ∧
  (∀ s t : State, step s = .next t → s.eng.err = true →
    (t.eng.err = true ∧ t.eng.cause = s.eng.cause ∧ t.eng.info = s.eng.info) ∨
    ((NextIssues s .clrerr ∨ NextIssues s .srst ∨ NextResets s) ∧
      t.eng.err = false ∧ t.eng.cause = .none ∧ t.eng.info = 0#32))

/-- R31: `OVF` is set by a successful FWD alone, and cleared by CLROVF, SRST and reset alone: the first clause
over the operations, the second over the steps, in which the reset input is an event of its own (the
model's choice, assumption log entry 8). -/
def Obligations.OverflowFlagIsSticky : Prop :=
  (∀ (i : Instr) (s t : State), exec i s = .next t →
    (s.eng.ovf = false → t.eng.ovf = true → Issues i .fwd ∧ t.trace = .write .okay :: s.trace) ∧
    (s.eng.ovf = true → t.eng.ovf = false →
      (Issues i .clrovf ∨ Issues i .srst) ∧ t.trace = .write .okay :: s.trace)) ∧
  (∀ s t : State, step s = .next t →
    (s.eng.ovf = false → t.eng.ovf = true → NextIssues s .fwd ∧ t.trace = .write .okay :: s.trace) ∧
    (s.eng.ovf = true → t.eng.ovf = false →
      (NextIssues s .clrovf ∨ NextIssues s .srst) ∧ t.trace = .write .okay :: s.trace ∨
      NextResets s ∧ t.trace = s.trace))

/-- R29: "Nothing else changes a mask". Under every operation each mask stays as it was, unless a listed event
changes it as listed, and then the transaction answered OKAY. (The reset input, which is no operation and
clears every mask as well, is the subject of `SrstIsReset`.) -/
def Obligations.MasksChangeOnlyAsListed : Prop :=
  ∀ (i : Instr) (s t : State), exec i s = .next t →
    (t.eng.sbm = s.eng.sbm ∨ t.trace = .write .okay :: s.trace ∧
      ((∃ w, WritesSb i w ∧ BitSet s.eng.sbm t.eng.sbm w) ∨
        (Issues i .fwd ∨ Issues i .flush ∨ Issues i .srst) ∧ t.eng.sbm = 0#16)) ∧
    (t.eng.cbm = s.eng.cbm ∨ t.trace = .write .okay :: s.trace ∧
      ((∃ w, WritesCb i w ∧ BitSet s.eng.cbm t.eng.cbm w) ∨
        Issues i .fwd ∧ t.eng.cbm = 0xFFFF#16 ∨
        (Issues i .bwd ∨ Issues i .flush ∨ Issues i .srst) ∧ t.eng.cbm = 0#16)) ∧
    (t.eng.pbv = s.eng.pbv ∨ t.trace = .write .okay :: s.trace ∧
      (Issues i .bwd ∧ t.eng.pbv = true ∨ (Issues i .flush ∨ Issues i .srst) ∧ t.eng.pbv = false)) ∧
    (t.eng.qmm = s.eng.qmm ∨ t.trace = .write .okay :: s.trace ∧
      ((∃ j, WritesQm i j ∧ BitSet s.eng.qmm t.eng.qmm j) ∨ Issues i .srst ∧ t.eng.qmm = 0#64))

/-- R23 to R26 and the access table of R48: who writes the buffers. Entries of `QM` and `SB` change only by a
host write to their own word, entries of `CB` by FWD as well, `PB` only by BWD; SRST leaves all of them
unspecified, and so does the reset input, which is no operation (`SrstIsReset`). -/
def Obligations.BuffersWrittenOnlyAsListed : Prop :=
  ∀ (i : Instr) (s t : State) (k : Fin 64), exec i s = .next t → ¬ Issues i .srst →
    (t.eng.qm[k] ≠ s.eng.qm[k] → WritesQm i k) ∧
    (t.eng.sb[k] ≠ s.eng.sb[k] → WritesSb i ⟨k.val / 4, by omega⟩) ∧
    (t.eng.cb[k] ≠ s.eng.cb[k] → WritesCb i ⟨k.val / 4, by omega⟩ ∨ Issues i .fwd) ∧
    (t.eng.pb[k] ≠ s.eng.pb[k] → Issues i .bwd)

/-- The fault record stays coherent at every step: "When `ERR = 0`, `CAUSE = 0` and `INFO = 0`" (R33), and else
`INFO` lies in the range R250 gives the recorded cause. -/
def Obligations.StepKeepsFaultRecordCoherent : Prop :=
  ∀ s s' : State, s.Inv → step s = .next s' → s'.Inv

/-- The reset state has a coherent fault record (R33, R47). -/
def Obligations.ResetFaultRecordCoherent : Prop := State.reset.Inv

/-- R292: "no observable value ever depends on an unspecified byte". Two machines that agree on everything but
the entries whose valid bit is 0 take the same step: same outcome, same response, and they agree again. -/
def Obligations.UnspecifiedBytesUnobservable : Prop :=
  ∀ s t : State, s.Agree t →
    (∀ s', step s = .next s' → ∃ t', step t = .next t' ∧ s'.Agree t') ∧
    (∀ f, step s = .fault f → step t = .fault f) ∧ (∀ r, step s ≠ .refused r)

/-- R291: SRST and the reset input produce the reset state of R290 alike; SRST is a transaction and answers OKAY,
the reset input answers nothing. Buffer contents are unspecified, so the instances agree (`Engine.Agree`)
with each other and with the state after reset. That the reset input is an event in the stream of bus
inputs, takes one step and adds no response is the model's choice (assumption log entry 8). -/
def Obligations.SrstIsReset : Prop :=
  ∀ (s : State) (rest : List Input), s.pending = .reset :: rest →
    ∃ t u, step s = .next t ∧ exec .srst s = .next u ∧ ResetGuards t.eng ∧ ResetGuards u.eng ∧
      t.eng.Agree u.eng ∧ t.eng.Agree State.reset.eng ∧ t.pending = rest ∧ t.trace = s.trace ∧
      u.trace = .write .okay :: s.trace

/-- R302: what the host sees after a reset. Every control register but ID reads 0, both pins are low, every
buffer read is refused, FWD and BWD fault with QM_UNSET and `INFO = 0`. -/
def Obligations.ResetConsequences : Prop :=
  ∀ s : State, ResetGuards s.eng →
    (∀ a : Nat, a % 4 = 0 → a ≤ 0x020 → a ≠ 0x010 →
      exec (.rd a) s = .next (after s (.read 0#32 .okay) s.eng)) ∧
    exec (.rd 0x010) s = .next (after s (.read 0x44435438#32 .okay) s.eng) ∧
    (∀ a : Nat, 0x100 ≤ a → a < 0x2C0 → exec (.rd a) s = .next (after s (.read 0#32 .error) s.eng)) ∧
    s.eng.faultPin = false ∧ s.eng.ovfPin = false ∧
    exec .fwd s = .next (after s (.write .error) (faultRecord s.eng .qmUnset 0#32)) ∧
    exec .bwd s = .next (after s (.write .error) (faultRecord s.eng .qmUnset 0#32))

/-! ### Steps, programs, systems -/

/-- A step runs the decoded transaction: when the next bus input is a transaction that decodes to `i`, the step
is `exec i` once the input has been accepted (R80, R309). -/
def Obligations.StepRunsDecodedTransaction : Prop :=
  ∀ (s : State) (q : Request) (rest : List Input) (i : Instr), s.pending = .transfer q :: rest →
    decodeRequest q = .ok i → step s = exec i { s with pending := rest }

/-- The bits of a row of the opcode table, put on the bus, run as the instruction they decode to: a command word
through CMD (R104, R111), a record as it stands (R108). How the bits get onto the bus is the model's
choice (assumption log entry 4). -/
def Obligations.FetchedWordRunsDecodedInstr : Prop :=
  ∀ (s : State) (nbits w : Nat) (i : Instr), decodeTableWord nbits w = some i →
    step (s.withFetchWord nbits w) = exec i s

/-- With nothing on the bus the state stays the same (R307; that this is a step at all is the model's choice,
assumption log entry 5); a read that carries data is no transaction and the machine stops (R108; the stop
is the model's choice, assumption log entry 6). -/
def Obligations.IdleAndNonTransactions : Prop :=
  (∀ s : State, s.pending = [] → step s = .next s) ∧
  (∀ (s : State) (q : Request) (rest : List Input), s.pending = .transfer q :: rest → q.write = false →
    q.data ≠ 0#32 → step s = .fault .notATransaction)

/-- R112: a program has one end state and one trace: from every state the run of a list of transactions ends
and leaves the inputs pending behind it untouched. It gives one result for each transaction in their order:
the `k`-th result is the response of the `k`-th transaction, executed at the state `u` that the first `k`
leave. -/
def Obligations.ProgramsRunToTheirEnd : Prop :=
  ∀ (prog : List Request) (s : State), (∀ q ∈ prog, q.wf = true) →
    ∃ (t : State) (results : List Response), runProgram prog s = .next t ∧
      t.results = s.results ++ results ∧ results.length = prog.length ∧ t.pending = s.pending ∧
      ∀ (k : Nat) (q : Request), prog[k]? = some q → ∃ (u v : State) (i : Instr) (r : Response),
        runProgram (prog.take k) s = .next u ∧ u.results = s.results ++ results.take k ∧
        decodeRequest q = .ok i ∧ exec i u = .next v ∧ v.trace = r :: u.trace ∧ results[k]? = some r

/-- R86, R271: no instance can observe or affect another. A step of instance `k` is a step of that instance
alone, whatever the others hold, and leaves the others as they were. -/
def Obligations.InstancesAreIndependent : Prop :=
  ∀ (neng : Nat) (k : Fin neng) (sys sys' : System neng), sys[k] = sys'[k] →
    ∀ u, System.step k sys = .next u →
      (∃ s, step sys[k] = .next s ∧ u[k] = s) ∧ (∀ j : Fin neng, j ≠ k → u[j] = sys[j]) ∧
      ∃ u', System.step k sys' = .next u' ∧ u'[k] = u[k]

/-! ### Numerics -/

/-- R15: `rhaq(n, d)` is `rha(n/d)` computed exactly. -/
def Obligations.RhaqRoundsTheQuotient : Prop :=
  ∀ (n : Int) (d : Nat), 0 < d → rhaq n d = rha ((n : ℝ) / (d : ℝ))

/-- R130: `rhaq` is odd, and at an exact tie it returns the integer of larger magnitude. -/
def Obligations.RhaqOddTiesAwayFromZero : Prop :=
  ∀ (n : Int) (d : Nat), 0 < d → rhaq (-n) d = - rhaq n d ∧
    ∀ j : Nat, 2 * n.natAbs = (2 * j + 1) * d → rhaq n d = sgn n * ((j : Int) + 1)

/-- R123: the cosine ROM is the cosine basis rounded at 16 fraction bits; column 0 sums to 524288 and every
other column to exactly 0. -/
def Obligations.CosineRomIsRoundedBasis : Prop :=
  (∀ m p : Fin 8, crom m p = rha (cosb m p * 2 ^ 16)) ∧ (∑ m : Fin 8, crom m 0 = 524288) ∧
    ∀ p : Fin 8, p ≠ 0 → ∑ m : Fin 8, crom m p = 0

/-- R127: the normalisation ROM is the product of the scale factors rounded at 16 fraction bits, with the three
values given, of which 8192 and 16384 are exact. -/
def Obligations.NormRomIsRoundedProduct : Prop :=
  ∀ p q : Fin 8, nrom p q = rha (normProduct p q * 2 ^ 16) ∧
    (p = 0 → q = 0 → nrom p q = 8192 ∧ normProduct p q * 2 ^ 16 = 8192) ∧
    ((p = 0 ∧ q ≠ 0 ∨ p ≠ 0 ∧ q = 0) → nrom p q = 11585) ∧
    (p ≠ 0 → q ≠ 0 → nrom p q = 16384 ∧ normProduct p q * 2 ^ 16 = 16384)

/-- R125: with these scale factors the transform is orthonormal: the columns `alpha(p)·cosb[m][p]` form an
orthonormal system. -/
def Obligations.ScaledBasisOrthonormal : Prop :=
  ∀ p p' : Fin 8, ∑ m : Fin 8, (alpha p * cosb m p) * (alpha p' * cosb m p') = if p = p' then 1 else 0

/-- R183: the inverse transform is the exact inverse of the forward transform on real inputs. -/
def Obligations.RealBackwardInvertsForward : Prop :=
  (∀ (S : Fin 64 → ℝ) (m n : Fin 8),
    backwardReal (fun i => forwardReal S (rowOf i) (colOf i)) m n = S (natural m n)) ∧
  (∀ (D : Fin 64 → ℝ) (p q : Fin 8),
    forwardReal (fun i => backwardReal D (rowOf i) (colOf i)) p q = D (natural p q))

/-- R158 (a): a constant block has `y[0] = rha(8s / Q[0])` and every other `y[i] = 0`, exactly, in both `NUM`. -/
def Obligations.ConstantBlockHasDcOnly : Prop :=
  ∀ (s : Int) (Q : IntBlock), (∀ i, 1 ≤ Q i) → ∀ i : Fin 64,
    quantize (fun _ => s) Q i = (if i = 0 then rha (8 * (s : ℝ) / (Q 0 : ℝ)) else 0) ∧
    quantizeReal (fun _ => s) Q i = (if i = 0 then rha (8 * (s : ℝ) / (Q 0 : ℝ)) else 0)

/-- R187 (a): with only the DC coefficient non-zero every pixel is `clamp(rha(B[0]·Q[0]/8) + 128, 0, 255)`,
exactly, in both `NUM`, for every zigzag permutation a configuration may supply. -/
def Obligations.DcOnlyBlockIsConstant : Prop :=
  ∀ (Z : Config.Zigzag) (B Q : IntBlock), Z.Valid → (∀ k : Fin 64, k ≠ 0 → B k = 0) → ∀ i : Fin 64,
    idctq Z B Q i = max 0 (min 255 (rha ((B 0 : ℝ) * (Q 0 : ℝ) / 8) + 128)) ∧
    idctqReal Z B Q i = max 0 (min 255 (rha ((B 0 : ℝ) * (Q 0 : ℝ) / 8) + 128))

/-- R158 (c): transposing the block and the matrix transposes the natural-order result. -/
def Obligations.ForwardCommutesWithTranspose : Prop :=
  ∀ (S Q : IntBlock) (i : Fin 64),
    quantize (fun j => S (natural (colOf j) (rowOf j))) (fun j => Q (natural (colOf j) (rowOf j))) i =
      quantize S Q (natural (colOf i) (rowOf i))

/-- R156: for samples in -128 to 127, if every matrix entry is at least 9 then no coefficient saturates. -/
def Obligations.NoOverflowFromNineUp : Prop :=
  ∀ (Z : Config.Zigzag) (S Q : IntBlock), (∀ i, -128 ≤ S i ∧ S i ≤ 127) → (∀ i, 9 ≤ Q i) →
    (fdctq Z S Q).2 = false

/-- R181, R155: un-zigzag of flatten is the identity, for every zigzag permutation a configuration may supply;
position 0 of the flattened block is the DC coefficient. The hardware's own permutation is one of them (R133),
and it numbers the frequency pairs in the order of the construction of R132. -/
def Obligations.UnZigzagInvertsFlatten : Prop :=
  hwZigzag.Valid ∧
  (∀ p q p' q' : Fin 8, zz (natural p q) < zz (natural p' q') ↔ WalkedBefore p q p' q') ∧
  ∀ (Z : Config.Zigzag) (z : IntBlock), Z.Valid →
    unZigzag Z (zigzagFlatten Z z) = z ∧ zigzagFlatten Z (unZigzag Z z) = z ∧ zigzagFlatten Z z 0 = z 0
end

