-- ==== Sys2Proof/Laws/Decode.lean ====
section
/-! SUPPORT. The decoder, once: which words are commands, what a record's fields are. -/

namespace Sys2Proof

/-- Everything the command decoder can answer (R102, R105). -/
theorem decodeCommand_cases (d : BitVec 32) :
    (d = 0x0#32 ∧ decodeCommand d = some .nop) ∨ (d = 0x1#32 ∧ decodeCommand d = some .fwd) ∨
    (d = 0x2#32 ∧ decodeCommand d = some .bwd) ∨ (d = 0x3#32 ∧ decodeCommand d = some .clrerr) ∨
    (d = 0x4#32 ∧ decodeCommand d = some .clrovf) ∨ (d = 0x5#32 ∧ decodeCommand d = some .flush) ∨
    (d = 0xF#32 ∧ decodeCommand d = some .srst) ∨
    (d ≠ 0x0#32 ∧ d ≠ 0x1#32 ∧ d ≠ 0x2#32 ∧ d ≠ 0x3#32 ∧ d ≠ 0x4#32 ∧ d ≠ 0x5#32 ∧ d ≠ 0xF#32 ∧
      decodeCommand d = none) := by
  have hm : ∀ p : BitVec 32, (d &&& 0xFFFFFFFF#32 == p) = decide (d = p) := by
    intro p
    have : d &&& 0xFFFFFFFF#32 = d := by
      have := BitVec.and_allOnes (x := d)
      simpa using this
    rw [this]
    rfl
  by_cases h0 : d = 0x0#32
  · subst h0; exact .inl ⟨rfl, rfl⟩
  by_cases h1 : d = 0x1#32
  · subst h1; exact .inr (.inl ⟨rfl, rfl⟩)
  by_cases h2 : d = 0x2#32
  · subst h2; exact .inr (.inr (.inl ⟨rfl, rfl⟩))
  by_cases h3 : d = 0x3#32
  · subst h3; exact .inr (.inr (.inr (.inl ⟨rfl, rfl⟩)))
  by_cases h4 : d = 0x4#32
  · subst h4; exact .inr (.inr (.inr (.inr (.inl ⟨rfl, rfl⟩))))
  by_cases h5 : d = 0x5#32
  · subst h5; exact .inr (.inr (.inr (.inr (.inr (.inl ⟨rfl, rfl⟩)))))
  by_cases hF : d = 0xF#32
  · subst hF; exact .inr (.inr (.inr (.inr (.inr (.inr (.inl ⟨rfl, rfl⟩))))))
  refine .inr (.inr (.inr (.inr (.inr (.inr (.inr ⟨h0, h1, h2, h3, h4, h5, hF, ?_⟩))))))
  simp [decodeCommand, commandRows, CommandRow.matchesWord, List.find?, hm, h0, h1, h2, h3, h4, h5, hF]

/-- A command's word decodes to the command. -/
@[simp] theorem decodeCommand_encodeCommand (c : Command) : decodeCommand (encodeCommand c) = some c := by
  cases c <;> rfl

/-- The fields of an encoded record are the fields encoded (R108). -/
theorem ofRecord_encodeRecord (w : Bool) {a : Nat} (ha : a < 4096) (d : BitVec 32) :
    Request.ofRecord (encodeRecord w a d) = ⟨w, a, d⟩ := by
  have hw : (encodeRecord w a d).getLsbD 44 = w := by
    simp only [encodeRecord, BitVec.getLsbD_append]
    cases w <;> rfl
  have ha' : (encodeRecord w a d).extractLsb' 32 12 = BitVec.ofNat 12 a := by
    apply BitVec.eq_of_getLsbD_eq
    intro i hi
    simp only [encodeRecord, BitVec.getLsbD_extractLsb', hi, decide_true, Bool.true_and, BitVec.getLsbD_append]
    rw [if_neg (by omega), if_pos (by omega)]
    congr 1
    omega
  have hd : (encodeRecord w a d).extractLsb' 0 32 = d := by
    apply BitVec.eq_of_getLsbD_eq
    intro i hi
    simp only [encodeRecord, BitVec.getLsbD_extractLsb', hi, decide_true, Bool.true_and, BitVec.getLsbD_append]
    rw [if_pos (by omega)]
    congr 1
    omega
  simp only [Request.ofRecord, hw, ha', hd, BitVec.toNat_ofNat]
  rw [Nat.mod_eq_of_lt (by simpa using ha)]

/-- A record is the encoding of its fields (R108). -/
theorem encodeRecord_ofRecord (t : BitVec 45) :
    encodeRecord (Request.ofRecord t).write (Request.ofRecord t).addr (Request.ofRecord t).data = t := by
  apply BitVec.eq_of_getLsbD_eq
  intro i hi
  simp only [encodeRecord, Request.ofRecord, BitVec.ofNat_toNat, BitVec.setWidth_eq, BitVec.getLsbD_append,
    BitVec.getLsbD_extractLsb']
  split
  · rename_i h
    simp [h]
  · split
    · rename_i h1 h2
      simp only [h2, decide_true, Bool.true_and]
      congr 1
      omega
    · obtain rfl : i = 44 := by omega
      cases t.getLsbD 44 <;> rfl

/-- A read is well-formed when its address lies in the window. -/
@[simp] theorem Instr.wf_rd (a : Nat) : (Instr.rd a).wf = true ↔ a < 4096 := by
  rw [Instr.wf, decide_eq_true_iff]
  rfl

/-- A write is well-formed when its address lies in the window. -/
@[simp] theorem Instr.wf_wr (a : Nat) (d : Word) : (Instr.wr a d).wf = true ↔ a < 4096 := by
  rw [Instr.wf, decide_eq_true_iff]
  rfl

/-- The address field of a record lies in the window (R61). -/
theorem ofRecord_addr_lt (t : BitVec 45) : (Request.ofRecord t).addr < 4096 := by
  have := (t.extractLsb' 32 12).isLt
  simpa [Request.ofRecord] using this

end Sys2Proof
end

