-- ==== Sys2Proof/Laws/Numeric.lean ====
section
/-! SUPPORT. The arithmetic primitives, the index maps and the tabulated vectors, once: what later proofs
cite in place of their definitions. -/

namespace Sys2Proof.Machine

@[simp] theorem getElem_tabulate {α : Type} (f : Fin 64 → α) (i : Nat) (h : i < 64) :
    (tabulate f)[i] = f ⟨i, h⟩ := by
  simp only [tabulate, Vector.getElem_mk, List.getElem_toArray, List.getElem_ofFn]

theorem s8_eq_toInt (b : Byte) : s8 b = b.toInt := by
  unfold s8
  rw [BitVec.toInt_eq_toNat_cond]
  have := b.isLt
  split <;> split <;> omega

theorem u8_eq_ofInt (v : Int) : u8 v = BitVec.ofInt 8 v := by
  apply BitVec.eq_of_toNat_eq
  simp [u8, BitVec.toNat_ofInt]
  omega

/-- The signed reading of a written byte is the value written (R12). -/
theorem s8_u8 {v : Int} (h1 : -128 ≤ v) (h2 : v ≤ 127) : s8 (u8 v) = v := by
  have h : (u8 v).toNat = (v % 256).toNat := by
    simp only [u8, BitVec.toNat_ofNat]
    omega
  unfold s8
  rw [h]
  split <;> omega

/-- The unsigned reading of a written byte is the value written (R12). -/
theorem toNat_u8 {v : Int} (h1 : 0 ≤ v) (h2 : v ≤ 255) : ((u8 v).toNat : Int) = v := by
  have h : (u8 v).toNat = (v % 256).toNat := by
    simp only [u8, BitVec.toNat_ofNat]
    omega
  rw [h]
  omega

theorem s8_bounds (b : Byte) : -128 ≤ s8 b ∧ s8 b ≤ 127 := by
  have := b.isLt
  unfold s8
  split <;> omega

theorem clamp_bounds (v : Int) {lo hi : Int} (h : lo ≤ hi) : lo ≤ clamp v lo hi ∧ clamp v lo hi ≤ hi := by
  unfold clamp
  split
  · omega
  · split <;> omega

theorem clamp_eq_max_min (v : Int) {lo hi : Int} (h : lo ≤ hi) : clamp v lo hi = max lo (min hi v) := by
  unfold clamp
  split
  · omega
  · split <;> omega

theorem sat8_bounds (v : Int) : -128 ≤ sat8 v ∧ sat8 v ≤ 127 := clamp_bounds v (by decide)

/-- Narrowing changes a value exactly when it lies outside -128 to 127 (R156). -/
theorem sat8_ne_iff (v : Int) : sat8 v ≠ v ↔ v < -128 ∨ 127 < v := by
  unfold sat8 clamp
  split
  · omega
  · split <;> omega

theorem sum8_eq_sum (f : Fin 8 → Int) : sum8 f = ∑ a, f a := by
  simp [sum8, Fin.sum_univ_eight]

theorem sum64_eq_sum (f : Fin 8 → Fin 8 → Int) : sum64 f = ∑ a, ∑ b, f a b := by
  simp only [sum64, sum8_eq_sum]

@[simp] theorem rhaq_zero (d : Nat) : rhaq 0 d = 0 := by
  rcases Nat.eq_zero_or_pos d with h | h
  · subst h
    rfl
  · have : d / (2 * d) = 0 := Nat.div_eq_of_lt (by omega)
    simp [rhaq, sgn, this]

@[simp] theorem rowOf_natural (a b : Fin 8) : rowOf (natural a b) = a := by
  apply Fin.ext
  simp only [rowOf, natural]
  omega

@[simp] theorem colOf_natural (a b : Fin 8) : colOf (natural a b) = b := by
  apply Fin.ext
  simp only [colOf, natural]
  omega

@[simp] theorem natural_rowOf_colOf (i : Fin 64) : natural (rowOf i) (colOf i) = i := by
  apply Fin.ext
  simp only [rowOf, colOf, natural]
  omega

theorem mem_indices (i : Fin 64) : i ∈ indices := List.mem_finRange i

/-- The overflow bit is set exactly when some value lies outside -128 to 127 (R156). -/
theorem anySaturated_iff (y : IntBlock) : anySaturated y = true ↔ ∃ i, y i < -128 ∨ 127 < y i := by
  simp only [anySaturated, List.any_eq_true, narrow, bne_iff_ne, sat8_ne_iff]
  exact ⟨fun ⟨i, _, h⟩ => ⟨i, h⟩, fun ⟨i, h⟩ => ⟨i, mem_indices i, h⟩⟩

/-- The two zigzag tables are inverse to each other (R133). -/
theorem izz_zz : ∀ i, izz (zz i) = i := by decide

/-- The two zigzag tables are inverse to each other (R133). -/
theorem zz_izz : ∀ k, zz (izz k) = k := by decide

end Sys2Proof.Machine
end

