-- ==== Sys2Proof/Laws/State.lean ====
section
/-! SUPPORT. One lemma per field and per update of the state (`rfl`, for simp), so that no proof unfolds a
record update. -/

namespace Sys2Proof.Machine

section StateUpdates
variable (s : State) (r : Response) (q : Request) (prog : List Request)

@[simp] theorem State.respond_eng : (s.respond r).eng = s.eng := rfl
@[simp] theorem State.respond_pending : (s.respond r).pending = s.pending := rfl
@[simp] theorem State.respond_trace : (s.respond r).trace = r :: s.trace := rfl
@[simp] theorem State.respond_freeIx : (s.respond r).freeIx = s.freeIx := rfl

@[simp] theorem State.resetCore_eng : (s.resetCore).eng = Engine.afterReset s.freeIx := rfl
@[simp] theorem State.resetCore_pending : (s.resetCore).pending = s.pending := rfl
@[simp] theorem State.resetCore_trace : (s.resetCore).trace = s.trace := rfl
@[simp] theorem State.resetCore_freeIx : (s.resetCore).freeIx = s.freeIx + 192 := rfl

@[simp] theorem State.issueNext_eng : (s.issueNext q).eng = s.eng := rfl
@[simp] theorem State.issueNext_pending : (s.issueNext q).pending = .transfer q :: s.pending := rfl
@[simp] theorem State.issueNext_trace : (s.issueNext q).trace = s.trace := rfl
@[simp] theorem State.issueNext_freeIx : (s.issueNext q).freeIx = s.freeIx := rfl

@[simp] theorem State.issue_eng : (s.issue prog).eng = s.eng := rfl
@[simp] theorem State.issue_pending : (s.issue prog).pending = s.pending ++ prog.map Input.transfer := rfl
@[simp] theorem State.issue_trace : (s.issue prog).trace = s.trace := rfl
@[simp] theorem State.issue_freeIx : (s.issue prog).freeIx = s.freeIx := rfl

end StateUpdates

@[simp] theorem hwDatapath_fdctq : hwDatapath.fdctq = fdctq hwZigzag := by simp only [hwDatapath, fxDatapath]

@[simp] theorem hwDatapath_idctq : hwDatapath.idctq = idctq hwZigzag := by simp only [hwDatapath, fxDatapath]

section EngineUpdates
variable (e : Engine) (c : Cause) (v d : Word) (i : Fin 64) (w : Fin 16)

@[simp] theorem Engine.faulted_sb : (e.faulted c v).sb = e.sb := rfl
@[simp] theorem Engine.faulted_cb : (e.faulted c v).cb = e.cb := rfl
@[simp] theorem Engine.faulted_pb : (e.faulted c v).pb = e.pb := rfl
@[simp] theorem Engine.faulted_qm : (e.faulted c v).qm = e.qm := rfl
@[simp] theorem Engine.faulted_sbm : (e.faulted c v).sbm = e.sbm := rfl
@[simp] theorem Engine.faulted_cbm : (e.faulted c v).cbm = e.cbm := rfl
@[simp] theorem Engine.faulted_pbv : (e.faulted c v).pbv = e.pbv := rfl
@[simp] theorem Engine.faulted_qmm : (e.faulted c v).qmm = e.qmm := rfl
@[simp] theorem Engine.faulted_err : (e.faulted c v).err = true := rfl
@[simp] theorem Engine.faulted_ovf : (e.faulted c v).ovf = e.ovf := rfl
@[simp] theorem Engine.faulted_cause : (e.faulted c v).cause = c := rfl
@[simp] theorem Engine.faulted_info : (e.faulted c v).info = v := rfl

@[simp] theorem Engine.returned_sb : (e.returned).sb = e.sb := rfl
@[simp] theorem Engine.returned_cb : (e.returned).cb = e.cb := rfl
@[simp] theorem Engine.returned_pb : (e.returned).pb = e.pb := rfl
@[simp] theorem Engine.returned_qm : (e.returned).qm = e.qm := rfl
@[simp] theorem Engine.returned_sbm : (e.returned).sbm = e.sbm := rfl
@[simp] theorem Engine.returned_cbm : (e.returned).cbm = e.cbm := rfl
@[simp] theorem Engine.returned_pbv : (e.returned).pbv = e.pbv := rfl
@[simp] theorem Engine.returned_qmm : (e.returned).qmm = e.qmm := rfl
@[simp] theorem Engine.returned_err : (e.returned).err = false := rfl
@[simp] theorem Engine.returned_ovf : (e.returned).ovf = e.ovf := rfl
@[simp] theorem Engine.returned_cause : (e.returned).cause = .none := rfl
@[simp] theorem Engine.returned_info : (e.returned).info = 0#32 := rfl

@[simp] theorem Engine.clearOvf_sb : (e.clearOvf).sb = e.sb := rfl
@[simp] theorem Engine.clearOvf_cb : (e.clearOvf).cb = e.cb := rfl
@[simp] theorem Engine.clearOvf_pb : (e.clearOvf).pb = e.pb := rfl
@[simp] theorem Engine.clearOvf_qm : (e.clearOvf).qm = e.qm := rfl
@[simp] theorem Engine.clearOvf_sbm : (e.clearOvf).sbm = e.sbm := rfl
@[simp] theorem Engine.clearOvf_cbm : (e.clearOvf).cbm = e.cbm := rfl
@[simp] theorem Engine.clearOvf_pbv : (e.clearOvf).pbv = e.pbv := rfl
@[simp] theorem Engine.clearOvf_qmm : (e.clearOvf).qmm = e.qmm := rfl
@[simp] theorem Engine.clearOvf_err : (e.clearOvf).err = e.err := rfl
@[simp] theorem Engine.clearOvf_ovf : (e.clearOvf).ovf = false := rfl
@[simp] theorem Engine.clearOvf_cause : (e.clearOvf).cause = e.cause := rfl
@[simp] theorem Engine.clearOvf_info : (e.clearOvf).info = e.info := rfl

@[simp] theorem Engine.flushed_sb : (e.flushed).sb = e.sb := rfl
@[simp] theorem Engine.flushed_cb : (e.flushed).cb = e.cb := rfl
@[simp] theorem Engine.flushed_pb : (e.flushed).pb = e.pb := rfl
@[simp] theorem Engine.flushed_qm : (e.flushed).qm = e.qm := rfl
@[simp] theorem Engine.flushed_sbm : (e.flushed).sbm = 0#16 := rfl
@[simp] theorem Engine.flushed_cbm : (e.flushed).cbm = 0#16 := rfl
@[simp] theorem Engine.flushed_pbv : (e.flushed).pbv = false := rfl
@[simp] theorem Engine.flushed_qmm : (e.flushed).qmm = e.qmm := rfl
@[simp] theorem Engine.flushed_err : (e.flushed).err = e.err := rfl
@[simp] theorem Engine.flushed_ovf : (e.flushed).ovf = e.ovf := rfl
@[simp] theorem Engine.flushed_cause : (e.flushed).cause = e.cause := rfl
@[simp] theorem Engine.flushed_info : (e.flushed).info = e.info := rfl

@[simp] theorem Engine.storeQm_sb : (e.storeQm i d).sb = e.sb := rfl
@[simp] theorem Engine.storeQm_cb : (e.storeQm i d).cb = e.cb := rfl
@[simp] theorem Engine.storeQm_pb : (e.storeQm i d).pb = e.pb := rfl
@[simp] theorem Engine.storeQm_qm : (e.storeQm i d).qm = e.qm.set i (d.extractLsb' 0 16) := rfl
@[simp] theorem Engine.storeQm_sbm : (e.storeQm i d).sbm = e.sbm := rfl
@[simp] theorem Engine.storeQm_cbm : (e.storeQm i d).cbm = e.cbm := rfl
@[simp] theorem Engine.storeQm_pbv : (e.storeQm i d).pbv = e.pbv := rfl
@[simp] theorem Engine.storeQm_qmm : (e.storeQm i d).qmm = setMask e.qmm i := rfl
@[simp] theorem Engine.storeQm_err : (e.storeQm i d).err = e.err := rfl
@[simp] theorem Engine.storeQm_ovf : (e.storeQm i d).ovf = e.ovf := rfl
@[simp] theorem Engine.storeQm_cause : (e.storeQm i d).cause = e.cause := rfl
@[simp] theorem Engine.storeQm_info : (e.storeQm i d).info = e.info := rfl

@[simp] theorem Engine.storeSb_sb : (e.storeSb w d).sb = unpackWord e.sb w d := rfl
@[simp] theorem Engine.storeSb_cb : (e.storeSb w d).cb = e.cb := rfl
@[simp] theorem Engine.storeSb_pb : (e.storeSb w d).pb = e.pb := rfl
@[simp] theorem Engine.storeSb_qm : (e.storeSb w d).qm = e.qm := rfl
@[simp] theorem Engine.storeSb_sbm : (e.storeSb w d).sbm = setMask e.sbm w := rfl
@[simp] theorem Engine.storeSb_cbm : (e.storeSb w d).cbm = e.cbm := rfl
@[simp] theorem Engine.storeSb_pbv : (e.storeSb w d).pbv = e.pbv := rfl
@[simp] theorem Engine.storeSb_qmm : (e.storeSb w d).qmm = e.qmm := rfl
@[simp] theorem Engine.storeSb_err : (e.storeSb w d).err = e.err := rfl
@[simp] theorem Engine.storeSb_ovf : (e.storeSb w d).ovf = e.ovf := rfl
@[simp] theorem Engine.storeSb_cause : (e.storeSb w d).cause = e.cause := rfl
@[simp] theorem Engine.storeSb_info : (e.storeSb w d).info = e.info := rfl

@[simp] theorem Engine.storeCb_sb : (e.storeCb w d).sb = e.sb := rfl
@[simp] theorem Engine.storeCb_cb : (e.storeCb w d).cb = unpackWord e.cb w d := rfl
@[simp] theorem Engine.storeCb_pb : (e.storeCb w d).pb = e.pb := rfl
@[simp] theorem Engine.storeCb_qm : (e.storeCb w d).qm = e.qm := rfl
@[simp] theorem Engine.storeCb_sbm : (e.storeCb w d).sbm = e.sbm := rfl
@[simp] theorem Engine.storeCb_cbm : (e.storeCb w d).cbm = setMask e.cbm w := rfl
@[simp] theorem Engine.storeCb_pbv : (e.storeCb w d).pbv = e.pbv := rfl
@[simp] theorem Engine.storeCb_qmm : (e.storeCb w d).qmm = e.qmm := rfl
@[simp] theorem Engine.storeCb_err : (e.storeCb w d).err = e.err := rfl
@[simp] theorem Engine.storeCb_ovf : (e.storeCb w d).ovf = e.ovf := rfl
@[simp] theorem Engine.storeCb_cause : (e.storeCb w d).cause = e.cause := rfl
@[simp] theorem Engine.storeCb_info : (e.storeCb w d).info = e.info := rfl

@[simp] theorem Engine.forward_sb : (e.forward).sb = e.sb := rfl
@[simp] theorem Engine.forward_cb : (e.forward).cb = byteBlock (hwDatapath.fdctq (signedBlock e.sb) (matrixBlock e.qm)).1 := rfl
@[simp] theorem Engine.forward_pb : (e.forward).pb = e.pb := rfl
@[simp] theorem Engine.forward_qm : (e.forward).qm = e.qm := rfl
@[simp] theorem Engine.forward_sbm : (e.forward).sbm = 0#16 := rfl
@[simp] theorem Engine.forward_cbm : (e.forward).cbm = BitVec.allOnes 16 := rfl
@[simp] theorem Engine.forward_pbv : (e.forward).pbv = e.pbv := rfl
@[simp] theorem Engine.forward_qmm : (e.forward).qmm = e.qmm := rfl
@[simp] theorem Engine.forward_err : (e.forward).err = e.err := rfl
@[simp] theorem Engine.forward_ovf : (e.forward).ovf = (e.ovf || (hwDatapath.fdctq (signedBlock e.sb) (matrixBlock e.qm)).2) := rfl
@[simp] theorem Engine.forward_cause : (e.forward).cause = e.cause := rfl
@[simp] theorem Engine.forward_info : (e.forward).info = e.info := rfl

@[simp] theorem Engine.backward_sb : (e.backward).sb = e.sb := rfl
@[simp] theorem Engine.backward_cb : (e.backward).cb = e.cb := rfl
@[simp] theorem Engine.backward_pb : (e.backward).pb = byteBlock (hwDatapath.idctq (signedBlock e.cb) (matrixBlock e.qm)) := rfl
@[simp] theorem Engine.backward_qm : (e.backward).qm = e.qm := rfl
@[simp] theorem Engine.backward_sbm : (e.backward).sbm = e.sbm := rfl
@[simp] theorem Engine.backward_cbm : (e.backward).cbm = 0#16 := rfl
@[simp] theorem Engine.backward_pbv : (e.backward).pbv = true := rfl
@[simp] theorem Engine.backward_qmm : (e.backward).qmm = e.qmm := rfl
@[simp] theorem Engine.backward_err : (e.backward).err = e.err := rfl
@[simp] theorem Engine.backward_ovf : (e.backward).ovf = e.ovf := rfl
@[simp] theorem Engine.backward_cause : (e.backward).cause = e.cause := rfl
@[simp] theorem Engine.backward_info : (e.backward).info = e.info := rfl

end EngineUpdates

section AfterReset
variable (n : Nat)

@[simp] theorem Engine.afterReset_sbm : (Engine.afterReset n).sbm = 0#16 := rfl
@[simp] theorem Engine.afterReset_cbm : (Engine.afterReset n).cbm = 0#16 := rfl
@[simp] theorem Engine.afterReset_pbv : (Engine.afterReset n).pbv = false := rfl
@[simp] theorem Engine.afterReset_qmm : (Engine.afterReset n).qmm = 0#64 := rfl
@[simp] theorem Engine.afterReset_err : (Engine.afterReset n).err = false := rfl
@[simp] theorem Engine.afterReset_ovf : (Engine.afterReset n).ovf = false := rfl
@[simp] theorem Engine.afterReset_cause : (Engine.afterReset n).cause = .none := rfl
@[simp] theorem Engine.afterReset_info : (Engine.afterReset n).info = 0#32 := rfl

end AfterReset

end Sys2Proof.Machine
end

