-- ==== Sys2Proof/Laws/Operands.lean ====
section
/-! SUPPORT. The address map, the masks, the packing of words and the pure reads and stores, once. -/

namespace Sys2Proof.Machine

/-! ### Masks -/

/-- A mask has no clear bit exactly when it is full. -/
theorem lowestClear_eq_none {w : Nat} (m : BitVec w) : lowestClear m = none ↔ m = BitVec.allOnes w := by
  simp only [lowestClear, List.find?_eq_none, List.mem_finRange, true_implies, Bool.not_eq_true,
    Bool.not_eq_false']
  constructor
  · intro h
    apply BitVec.eq_of_getLsbD_eq
    intro i hi
    simpa [hi] using h ⟨i, hi⟩
  · rintro rfl i
    simp

/-- `lowestClear` answers the lowest bit that is 0. -/
theorem lowestClear_eq_some {w : Nat} (m : BitVec w) (i : Fin w) :
    lowestClear m = some i ↔ m.getLsbD i = false ∧ ∀ j : Fin w, j < i → m.getLsbD j = true := by
  unfold lowestClear
  rw [List.find?_eq_some_iff_getElem]
  simp only [Bool.not_eq_true', List.length_finRange, List.getElem_finRange]
  constructor
  · rintro ⟨h, k, hk, he, hj⟩
    refine ⟨h, fun j hji => ?_⟩
    have hik : i.val = k := by rw [← he]; rfl
    simpa using hj j.val (by have : j.val < i.val := hji; omega)
  · rintro ⟨h, hj⟩
    refine ⟨h, i.val, i.isLt, by ext; simp, fun k hk => ?_⟩
    simpa using hj ⟨k, by omega⟩ hk

theorem fullMask_iff {w : Nat} (m : BitVec w) : fullMask m = true ↔ m = BitVec.allOnes w := by
  simp [fullMask]

/-- Setting a mask bit sets that bit and no other (R29). -/
theorem getLsbD_setMask {w : Nat} (m : BitVec w) (i j : Fin w) :
    (setMask m i).getLsbD j = (decide (j = i) || m.getLsbD j) := by
  rw [setMask, BitVec.getLsbD_or, BitVec.getLsbD_twoPow, Bool.or_comm, decide_eq_true i.isLt, Bool.true_and]
  congr 1
  simp only [Fin.ext_iff, eq_comm]

theorem lowestZero_eq_none (v : Matrix) : lowestZero v = none ↔ ∀ i : Fin 64, v[i] ≠ 0#16 := by
  simp [lowestZero, List.find?_eq_none, indices]

theorem lowestZero_eq_some (v : Matrix) (i : Fin 64) :
    lowestZero v = some i ↔ v[i] = 0#16 ∧ ∀ j : Fin 64, j < i → v[j] ≠ 0#16 := by
  unfold lowestZero indices
  rw [List.find?_eq_some_iff_getElem]
  simp only [beq_iff_eq, List.length_finRange, List.getElem_finRange]
  constructor
  · rintro ⟨h, k, hk, he, hj⟩
    refine ⟨h, fun j hji => ?_⟩
    have hik : i.val = k := by rw [← he]; rfl
    simpa using hj j.val (by have : j.val < i.val := hji; omega)
  · rintro ⟨h, hj⟩
    refine ⟨h, i.val, i.isLt, by ext; simp, fun k hk => ?_⟩
    simpa using hj ⟨k, by omega⟩ hk

/-! ### The address map -/

@[simp] theorem region_cmd : region 0x000 = .cmd := rfl

theorem region_misaligned {a : Nat} (h : a % 4 ≠ 0) : region a = .misaligned := by simp [region, h]

@[simp] theorem region_qm (i : Fin 64) : region (0x100 + 4 * i.val) = .qm i := by
  have := i.isLt
  unfold region
  rw [if_neg (by omega), if_neg (by omega), if_neg (by omega), dif_pos (by omega)]
  congr 1
  apply Fin.ext
  show (0x100 + 4 * i.val - 0x100) / 4 = i.val
  omega

@[simp] theorem region_sb (w : Fin 16) : region (0x200 + 4 * w.val) = .sb w := by
  have := w.isLt
  unfold region
  rw [if_neg (by omega), if_neg (by omega), if_neg (by omega), dif_neg (by omega), dif_pos (by omega)]
  congr 1
  apply Fin.ext
  show (0x200 + 4 * w.val - 0x200) / 4 = w.val
  omega

@[simp] theorem region_cb (w : Fin 16) : region (0x240 + 4 * w.val) = .cb w := by
  have := w.isLt
  unfold region
  rw [if_neg (by omega), if_neg (by omega), if_neg (by omega), dif_neg (by omega), dif_neg (by omega),
    dif_pos (by omega)]
  congr 1
  apply Fin.ext
  show (0x240 + 4 * w.val - 0x240) / 4 = w.val
  omega

@[simp] theorem region_pb (w : Fin 16) : region (0x280 + 4 * w.val) = .pb w := by
  have := w.isLt
  unfold region
  rw [if_neg (by omega), if_neg (by omega), if_neg (by omega), dif_neg (by omega), dif_neg (by omega),
    dif_neg (by omega), dif_pos (by omega)]
  congr 1
  apply Fin.ext
  show (0x280 + 4 * w.val - 0x280) / 4 = w.val
  omega

/-- The unmapped addresses of R75. -/
theorem region_unmapped {a : Nat} (h4 : a % 4 = 0)
    (h : (0x024 ≤ a ∧ a ≤ 0x0FC) ∨ (0x2C0 ≤ a ∧ a ≤ 0xFFC) ∨ 0x1000 ≤ a) : region a = .unmapped := by
  unfold region
  rw [if_neg (by omega), if_neg (by omega)]
  split
  · unfold ctlRegAt
    repeat rw [if_neg (by omega)]
  · rw [dif_neg (by omega), dif_neg (by omega), dif_neg (by omega), dif_neg (by omega)]

/-- The control registers of R35. -/
theorem region_ctl {a : Nat} (h4 : a % 4 = 0) (h1 : 0x004 ≤ a) (h2 : a ≤ 0x020) : ∃ r, region a = .ctl r := by
  obtain ⟨k, rfl⟩ : ∃ k, a = 4 * k := ⟨a / 4, by omega⟩
  have hk : k = 1 ∨ k = 2 ∨ k = 3 ∨ k = 4 ∨ k = 5 ∨ k = 6 ∨ k = 7 ∨ k = 8 := by omega
  rcases hk with h | h | h | h | h | h | h | h <;> subst h <;> exact ⟨_, rfl⟩

/-- An aligned address of the buffer window is an entry of `QM` or a word of `SB`, `CB` or `PB` (R62). -/
theorem buffer_address {b : Nat} (h4 : b % 4 = 0) (h1 : 0x100 ≤ b) (h2 : b < 0x2C0) :
    (∃ i : Fin 64, b = 0x100 + 4 * i.val) ∨ (∃ w : Fin 16, b = 0x200 + 4 * w.val) ∨
    (∃ w : Fin 16, b = 0x240 + 4 * w.val) ∨ (∃ w : Fin 16, b = 0x280 + 4 * w.val) := by
  by_cases c1 : b < 0x200
  · exact .inl ⟨⟨(b - 0x100) / 4, by omega⟩, by dsimp only; omega⟩
  by_cases c2 : b < 0x240
  · exact .inr (.inl ⟨⟨(b - 0x200) / 4, by omega⟩, by dsimp only; omega⟩)
  by_cases c3 : b < 0x280
  · exact .inr (.inr (.inl ⟨⟨(b - 0x240) / 4, by omega⟩, by dsimp only; omega⟩))
  · exact .inr (.inr (.inr ⟨⟨(b - 0x280) / 4, by omega⟩, by dsimp only; omega⟩))

/-- Every byte address is of one of the kinds of R62. -/
theorem address_cases (a : Nat) :
    region a = .misaligned ∨ region a = .unmapped ∨ a = 0 ∨
    (4 ≤ a ∧ a ≤ 0x20 ∧ ∃ r, region a = .ctl r) ∨
    (∃ i : Fin 64, a = 0x100 + 4 * i.val) ∨ (∃ w : Fin 16, a = 0x200 + 4 * w.val) ∨
    (∃ w : Fin 16, a = 0x240 + 4 * w.val) ∨ (∃ w : Fin 16, a = 0x280 + 4 * w.val) := by
  by_cases c1 : a % 4 = 0
  swap
  · exact .inl (region_misaligned c1)
  by_cases c2 : a = 0
  · exact .inr (.inr (.inl c2))
  by_cases c3 : a ≤ 0x20
  · exact .inr (.inr (.inr (.inl ⟨by omega, c3, region_ctl c1 (by omega) c3⟩)))
  by_cases c4 : 0x100 ≤ a ∧ a < 0x2C0
  · exact .inr (.inr (.inr (.inr (buffer_address c1 c4.1 c4.2))))
  · exact .inr (.inl (region_unmapped c1 (by omega)))

/-- Only offset 0 is CMD. -/
theorem region_eq_cmd {a : Nat} : region a = .cmd ↔ a = 0 := by
  refine ⟨fun h => ?_, fun h => h ▸ rfl⟩
  rcases address_cases a with hr | hr | rfl | ⟨_, _, _, hr⟩ | ⟨_, rfl⟩ | ⟨_, rfl⟩ | ⟨_, rfl⟩ | ⟨_, rfl⟩
  all_goals first | rfl | (rw [hr] at h; cases h) | simp at h

/-- Which byte address leads to an entry of `QM`. -/
theorem region_eq_qm {a : Nat} {i : Fin 64} (h : region a = .qm i) : a = 0x100 + 4 * i.val := by
  rcases address_cases a with hr | hr | rfl | ⟨_, _, _, hr⟩ | ⟨_, rfl⟩ | ⟨_, rfl⟩ | ⟨_, rfl⟩ | ⟨_, rfl⟩ <;>
    first | rw [hr] at h | skip
  all_goals simp at h
  rw [h]

/-- Which byte address leads to a word of `SB`. -/
theorem region_eq_sb {a : Nat} {i : Fin 16} (h : region a = .sb i) : a = 0x200 + 4 * i.val := by
  rcases address_cases a with hr | hr | rfl | ⟨_, _, _, hr⟩ | ⟨_, rfl⟩ | ⟨_, rfl⟩ | ⟨_, rfl⟩ | ⟨_, rfl⟩ <;>
    first | rw [hr] at h | skip
  all_goals simp at h
  rw [h]

/-- Which byte address leads to a word of `CB`. -/
theorem region_eq_cb {a : Nat} {i : Fin 16} (h : region a = .cb i) : a = 0x240 + 4 * i.val := by
  rcases address_cases a with hr | hr | rfl | ⟨_, _, _, hr⟩ | ⟨_, rfl⟩ | ⟨_, rfl⟩ | ⟨_, rfl⟩ | ⟨_, rfl⟩ <;>
    first | rw [hr] at h | skip
  all_goals simp at h
  rw [h]

/-! ### Packing -/

/-- The bytes of a packed word are the entries of the buffer (R64). -/
theorem wordByte_packWord (v : Block) (w : Fin 16) (j : Fin 4) :
    wordByte (packWord v w) j = v[4 * w.val + j.val] := by
  have key : ∀ a b c d : Byte,
      wordByte (d ++ c ++ b ++ a) 0 = a ∧ wordByte (d ++ c ++ b ++ a) 1 = b ∧
        wordByte (d ++ c ++ b ++ a) 2 = c ∧ wordByte (d ++ c ++ b ++ a) 3 = d := by
    intro a b c d
    refine ⟨?_, ?_, ?_, ?_⟩ <;> apply BitVec.eq_of_getLsbD_eq <;> intro i hi <;>
      simp only [wordByte, BitVec.getLsbD_extractLsb', BitVec.getLsbD_append, hi, decide_true, Bool.true_and] <;>
      (repeat' split) <;> first | omega | (congr 1; omega)
  obtain ⟨h0, h1, h2, h3⟩ := key v[4 * w.val] v[4 * w.val + 1] v[4 * w.val + 2] v[4 * w.val + 3]
  fin_cases j
  · exact h0
  · exact h1
  · exact h2
  · exact h3

/-- A word is its four bytes. -/
theorem word_eq_of_bytes {d e : Word} (h : ∀ j : Fin 4, wordByte d j = wordByte e j) : d = e := by
  apply BitVec.eq_of_getLsbD_eq
  intro i hi
  have hb := congrArg (fun b : Byte => b.getLsbD (i % 8)) (h ⟨i / 8, by omega⟩)
  simp only [wordByte, BitVec.getLsbD_extractLsb', Nat.mod_lt i (by decide : 8 > 0), decide_true,
    Bool.true_and] at hb
  rwa [Nat.div_add_mod] at hb

theorem getElem_unpackWord (v : Block) (w : Fin 16) (d : Word) (i : Nat) (h : i < 64) :
    (unpackWord v w d)[i] = if i / 4 = w.val then wordByte d (i % 4) else v[i] := by
  simp [unpackWord]

/-- What a store writes, a read of the same word returns (R64, R68, R69, R70). -/
theorem packWord_unpackWord (v : Block) (w : Fin 16) (d : Word) : packWord (unpackWord v w d) w = d := by
  apply word_eq_of_bytes
  intro j
  rw [wordByte_packWord, getElem_unpackWord, if_pos (by omega)]
  congr 1
  omega

/-- A store to one word leaves every other word as it was. -/
theorem packWord_unpackWord_ne (v : Block) {w u : Fin 16} (d : Word) (h : u ≠ w) :
    packWord (unpackWord v w d) u = packWord v u := by
  apply word_eq_of_bytes
  intro j
  have hu : u.val ≠ w.val := fun he => h (Fin.ext he)
  rw [wordByte_packWord, wordByte_packWord, getElem_unpackWord, if_neg (by omega)]

/-! ### Reads and stores -/

/-- A store to an entry of `QM` is accepted when the data fits 16 bits (R66). -/
theorem storeWord_qm (e : Engine) (i : Fin 64) (d : Word) :
    storeWord e (0x100 + 4 * i.val) d = if d.toNat < 65536 then some (e.storeQm i d) else none := by
  unfold storeWord
  rw [region_qm]
  rfl

/-- A store to a word of `SB` is accepted (R68). -/
@[simp] theorem storeWord_sb (e : Engine) (w : Fin 16) (d : Word) :
    storeWord e (0x200 + 4 * w.val) d = some (e.storeSb w d) := by
  unfold storeWord
  rw [region_sb]

/-- A store to a word of `CB` is accepted (R69). -/
@[simp] theorem storeWord_cb (e : Engine) (w : Fin 16) (d : Word) :
    storeWord e (0x240 + 4 * w.val) d = some (e.storeCb w d) := by
  unfold storeWord
  rw [region_cb]

/-- Everything a store can do: it is refused, or it writes one entry of `QM`, or one word of `SB` or `CB`. -/
theorem storeWord_cases {e e' : Engine} {a : Nat} {d : Word} (h : storeWord e a d = some e') :
    (∃ i : Fin 64, a = 0x100 + 4 * i.val ∧ d.toNat < 65536 ∧ e' = e.storeQm i d) ∨
    (∃ w : Fin 16, a = 0x200 + 4 * w.val ∧ e' = e.storeSb w d) ∨
    (∃ w : Fin 16, a = 0x240 + 4 * w.val ∧ e' = e.storeCb w d) := by
  unfold storeWord at h
  split at h <;> try cases h
  · rename_i i hi
    split at h
    · injection h with h
      exact .inl ⟨i, region_eq_qm hi, by assumption, h.symm⟩
    · cases h
  · rename_i w hw
    exact .inr (.inl ⟨w, region_eq_sb hw, rfl⟩)
  · rename_i w hw
    exact .inr (.inr ⟨w, region_eq_cb hw, rfl⟩)

/-- Everything the matrix check can answer (R253, R254, R260). -/
theorem matrixFault_cases (e : Engine) :
    (∃ i : Fin 64, matrixFault e = some (.qmUnset, BitVec.ofNat 32 i) ∧ e.qmm.getLsbD i = false ∧
      ∀ j : Fin 64, j < i → e.qmm.getLsbD j = true) ∨
    (∃ i : Fin 64, matrixFault e = some (.qmZero, BitVec.ofNat 32 i) ∧ e.qmm = BitVec.allOnes 64 ∧
      e.qm[i] = 0#16 ∧ ∀ j : Fin 64, j < i → e.qm[j] ≠ 0#16) ∨
    (matrixFault e = none ∧ e.qmm = BitVec.allOnes 64 ∧ ∀ i : Fin 64, e.qm[i] ≠ 0#16) := by
  unfold matrixFault
  cases hc : lowestClear e.qmm with
  | some i => exact .inl ⟨i, rfl, (lowestClear_eq_some _ _).1 hc⟩
  | none =>
    cases hz : lowestZero e.qm with
    | some i => exact .inr (.inl ⟨i, rfl, (lowestClear_eq_none _).1 hc, (lowestZero_eq_some _ _).1 hz⟩)
    | none => exact .inr (.inr ⟨rfl, (lowestClear_eq_none _).1 hc, (lowestZero_eq_none _).1 hz⟩)

/-- The matrix is usable exactly when it is wholly written and has no zero entry. -/
theorem matrixFault_eq_none (e : Engine) :
    matrixFault e = none ↔ e.qmm = BitVec.allOnes 64 ∧ ∀ i : Fin 64, e.qm[i] ≠ 0#16 := by
  rcases matrixFault_cases e with ⟨i, h, hc, _⟩ | ⟨i, h, _, hz, _⟩ | ⟨h, hm, hz⟩
  · simp only [h, reduceCtorEq, false_iff, not_and]
    intro hm
    rw [← lowestClear_eq_none, (lowestClear_eq_some _ i).2 ⟨hc, by assumption⟩] at hm
    cases hm
  · simp only [h, reduceCtorEq, false_iff, not_and, not_forall, not_not]
    exact fun _ => ⟨i, hz⟩
  · simp only [h, true_iff]
    exact ⟨hm, hz⟩

/-- FWD passes its checks exactly when matrix and sample buffer are good (R150). -/
theorem forwardFault_eq_none (e : Engine) :
    forwardFault e = none ↔
      e.qmm = BitVec.allOnes 64 ∧ (∀ i : Fin 64, e.qm[i] ≠ 0#16) ∧ e.sbm = BitVec.allOnes 16 := by
  rw [← and_assoc, ← matrixFault_eq_none, ← lowestClear_eq_none]
  unfold forwardFault
  cases matrixFault e <;> cases lowestClear e.sbm <;> simp

/-- BWD passes its checks exactly when matrix and coefficient buffer are good (R180). -/
theorem backwardFault_eq_none (e : Engine) :
    backwardFault e = none ↔
      e.qmm = BitVec.allOnes 64 ∧ (∀ i : Fin 64, e.qm[i] ≠ 0#16) ∧ e.cbm = BitVec.allOnes 16 := by
  rw [← and_assoc, ← matrixFault_eq_none, ← lowestClear_eq_none]
  unfold backwardFault
  cases matrixFault e <;> cases lowestClear e.cbm <;> simp

/-- Every fault a command raises has a cause other than NONE. -/
theorem forwardFault_cause {e : Engine} {c : Cause} {v : Word} (h : forwardFault e = some (c, v)) :
    ((c = .qmUnset ∨ c = .qmZero) ∧ matrixFault e = some (c, v) ∧ v.toNat < 64) ∨
    (c = .sbIncomplete ∧ v.toNat < 16) := by
  unfold forwardFault at h
  rcases matrixFault_cases e with ⟨i, hm, _⟩ | ⟨i, hm, _⟩ | ⟨hm, _⟩ <;> rw [hm] at h
  · simp only [Option.some.injEq, Prod.mk.injEq] at h
    obtain ⟨rfl, rfl⟩ := h
    exact .inl ⟨.inl rfl, hm, by simp; omega⟩
  · simp only [Option.some.injEq, Prod.mk.injEq] at h
    obtain ⟨rfl, rfl⟩ := h
    exact .inl ⟨.inr rfl, hm, by simp; omega⟩
  · cases hs : lowestClear e.sbm with
    | none => simp [hs] at h
    | some w =>
      simp only [hs, Option.some.injEq, Prod.mk.injEq] at h
      obtain ⟨rfl, rfl⟩ := h
      exact .inr ⟨rfl, by simp; omega⟩

/-- Every fault a command raises has a cause other than NONE. -/
theorem backwardFault_cause {e : Engine} {c : Cause} {v : Word} (h : backwardFault e = some (c, v)) :
    ((c = .qmUnset ∨ c = .qmZero) ∧ matrixFault e = some (c, v) ∧ v.toNat < 64) ∨
    (c = .cbIncomplete ∧ v.toNat < 16) := by
  unfold backwardFault at h
  rcases matrixFault_cases e with ⟨i, hm, _⟩ | ⟨i, hm, _⟩ | ⟨hm, _⟩ <;> rw [hm] at h
  · simp only [Option.some.injEq, Prod.mk.injEq] at h
    obtain ⟨rfl, rfl⟩ := h
    exact .inl ⟨.inl rfl, hm, by simp; omega⟩
  · simp only [Option.some.injEq, Prod.mk.injEq] at h
    obtain ⟨rfl, rfl⟩ := h
    exact .inl ⟨.inr rfl, hm, by simp; omega⟩
  · cases hs : lowestClear e.cbm with
    | none => simp [hs] at h
    | some w =>
      simp only [hs, Option.some.injEq, Prod.mk.injEq] at h
      obtain ⟨rfl, rfl⟩ := h
      exact .inr ⟨rfl, by simp; omega⟩

/-! ### Reads after stores -/

/-- A store leaves the read of every other buffer address as it was. -/
theorem readWord_storeWord_ne {e e' : Engine} {a b : Nat} {d : Word} (h : storeWord e a d = some e')
    (hb : b ≠ a) (h1 : 0x100 ≤ b) (h2 : b < 0x2C0) : readWord e' b = readWord e b := by
  by_cases h4 : b % 4 = 0
  swap
  · simp [readWord, region_misaligned h4]
  have gm := fun {w : Nat} (m : BitVec w) i j => @getLsbD_setMask w m i j
  rcases storeWord_cases h with ⟨i, rfl, hd, rfl⟩ | ⟨w, rfl, rfl⟩ | ⟨w, rfl, rfl⟩ <;>
    rcases buffer_address h4 h1 h2 with ⟨j, rfl⟩ | ⟨j, rfl⟩ | ⟨j, rfl⟩ | ⟨j, rfl⟩ <;>
    simp only [readWord, region_qm, region_sb, region_cb, region_pb, Engine.storeQm, Engine.storeSb,
      Engine.storeCb, gm] <;> try rfl
  · have hij : j ≠ i := by rintro rfl; exact hb rfl
    have hv : i.val ≠ j.val := fun he => hij (Fin.ext he.symm)
    simp [hij, hv]
  · have hij : j ≠ w := by rintro rfl; exact hb rfl
    simp [hij, packWord_unpackWord_ne]
  · have hij : j ≠ w := by rintro rfl; exact hb rfl
    simp [hij, packWord_unpackWord_ne]

/-- What a store accepts, the next read of its address returns (R80). -/
theorem readWord_storeWord_same {e e' : Engine} {a : Nat} {d : Word} (h : storeWord e a d = some e') :
    readWord e' a = some d := by
  have gm := fun {w : Nat} (m : BitVec w) i => @getLsbD_setMask w m i i
  rcases storeWord_cases h with ⟨i, rfl, hd, rfl⟩ | ⟨w, rfl, rfl⟩ | ⟨w, rfl, rfl⟩ <;>
    simp only [readWord, region_qm, region_sb, region_cb, Engine.storeQm, Engine.storeSb, Engine.storeCb, gm]
  · simp
    apply BitVec.eq_of_toNat_eq
    simp only [BitVec.toNat_setWidth, BitVec.extractLsb'_toNat]
    omega
  · simp [packWord_unpackWord]
  · simp [packWord_unpackWord]

end Sys2Proof.Machine
end

