-- ==== Sys2Proof/Laws/Ops.lean ====
section
/-! SUPPORT. What each meaning can do, once: one inversion lemma per meaning and one for the step. -/

namespace Sys2Proof.Machine

/-- A read answers what `readWord` gives and changes nothing but the trace (R63). -/
theorem execRd_eq (a : Nat) (s : State) :
    execRd a s = .next (s.respond
      (match readWord s.eng a with
       | some d => .read d .okay
       | none => .read 0#32 .error)) := by
  unfold execRd
  cases readWord s.eng a <;> rfl

/-- A command word written to CMD is that command (R36, R111). -/
theorem writeCmd_of_decode {d : Word} {c : Command} (h : decodeCommand d = some c) (s : State) :
    writeCmd d s = exec c.toInstr s := by
  unfold writeCmd
  rw [h]
  cases c <;> rfl

/-- Everything FWD can do. -/
theorem execFwd_cases (s : State) :
    (s.eng.err = true ∧ execFwd s = refuseWrite s) ∨
    (∃ c v, s.eng.err = false ∧ forwardFault s.eng = some (c, v) ∧ execFwd s = raiseFault c v s) ∨
    (s.eng.err = false ∧ forwardFault s.eng = none ∧ execFwd s = writeOkay { s with eng := s.eng.forward }) := by
  unfold execFwd
  cases he : s.eng.err
  · cases hf : forwardFault s.eng with
    | none => exact .inr (.inr ⟨rfl, rfl, rfl⟩)
    | some f => exact .inr (.inl ⟨f.1, f.2, rfl, rfl, rfl⟩)
  · exact .inl ⟨rfl, rfl⟩

/-- Everything BWD can do. -/
theorem execBwd_cases (s : State) :
    (s.eng.err = true ∧ execBwd s = refuseWrite s) ∨
    (∃ c v, s.eng.err = false ∧ backwardFault s.eng = some (c, v) ∧ execBwd s = raiseFault c v s) ∨
    (s.eng.err = false ∧ backwardFault s.eng = none ∧
      execBwd s = writeOkay { s with eng := s.eng.backward }) := by
  unfold execBwd
  cases he : s.eng.err
  · cases hf : backwardFault s.eng with
    | none => exact .inr (.inr ⟨rfl, rfl, rfl⟩)
    | some f => exact .inr (.inl ⟨f.1, f.2, rfl, rfl, rfl⟩)
  · exact .inl ⟨rfl, rfl⟩

/-- In the fault state a gated command is refused. -/
theorem gated_of_err {s : State} {x : Result} (h : s.eng.err = true) :
    (if s.eng.err then refuseWrite s else x) = refuseWrite s := by
  rw [h, if_pos rfl]

/-- Outside the fault state a gated command runs. -/
theorem gated_of_not_err {s : State} {x : Result} (h : s.eng.err = false) :
    (if s.eng.err then refuseWrite s else x) = x := by
  rw [h]
  exact if_neg (by decide)

/-- Everything a write to CMD can do (R104). -/
theorem writeCmd_cases (d : Word) (s : State) :
    (s.eng.err = true ∧ d ≠ 0x3#32 ∧ d ≠ 0xF#32 ∧ writeCmd d s = refuseWrite s) ∨
    (d = 0x3#32 ∧ writeCmd d s = returnFromFault s) ∨
    (d = 0xF#32 ∧ writeCmd d s = writeOkay s.resetCore) ∨
    (s.eng.err = false ∧ decodeCommand d = none ∧ writeCmd d s = raiseFault .illegalCmd d s) ∨
    (s.eng.err = false ∧ d = 0x0#32 ∧ writeCmd d s = writeOkay s) ∨
    (∃ c v, s.eng.err = false ∧ d = 0x1#32 ∧ forwardFault s.eng = some (c, v) ∧
      writeCmd d s = raiseFault c v s) ∨
    (s.eng.err = false ∧ d = 0x1#32 ∧ forwardFault s.eng = none ∧
      writeCmd d s = writeOkay { s with eng := s.eng.forward }) ∨
    (∃ c v, s.eng.err = false ∧ d = 0x2#32 ∧ backwardFault s.eng = some (c, v) ∧
      writeCmd d s = raiseFault c v s) ∨
    (s.eng.err = false ∧ d = 0x2#32 ∧ backwardFault s.eng = none ∧
      writeCmd d s = writeOkay { s with eng := s.eng.backward }) ∨
    (s.eng.err = false ∧ d = 0x4#32 ∧ writeCmd d s = writeOkay { s with eng := s.eng.clearOvf }) ∨
    (s.eng.err = false ∧ d = 0x5#32 ∧ writeCmd d s = writeOkay { s with eng := s.eng.flushed }) := by
  rcases decodeCommand_cases d with
    ⟨hd, hc⟩ | ⟨hd, hc⟩ | ⟨hd, hc⟩ | ⟨hd, hc⟩ | ⟨hd, hc⟩ | ⟨hd, hc⟩ | ⟨hd, hc⟩ | ⟨-, -, -, h3, -, -, hF, hc⟩
  · have hw : writeCmd d s = execNop s := writeCmd_of_decode hc s
    cases he : s.eng.err
    · exact .inr (.inr (.inr (.inr (.inl ⟨rfl, hd, hw.trans (gated_of_not_err he)⟩))))
    · exact .inl ⟨rfl, by rw [hd]; decide, by rw [hd]; decide, hw.trans (gated_of_err he)⟩
  · have hw : writeCmd d s = execFwd s := writeCmd_of_decode hc s
    rcases execFwd_cases s with ⟨he, h⟩ | ⟨c, v, he, hf, h⟩ | ⟨he, hf, h⟩
    · exact .inl ⟨he, by rw [hd]; decide, by rw [hd]; decide, hw.trans h⟩
    · exact .inr (.inr (.inr (.inr (.inr (.inl ⟨c, v, he, hd, hf, hw.trans h⟩)))))
    · exact .inr (.inr (.inr (.inr (.inr (.inr (.inl ⟨he, hd, hf, hw.trans h⟩))))))
  · have hw : writeCmd d s = execBwd s := writeCmd_of_decode hc s
    rcases execBwd_cases s with ⟨he, h⟩ | ⟨c, v, he, hf, h⟩ | ⟨he, hf, h⟩
    · exact .inl ⟨he, by rw [hd]; decide, by rw [hd]; decide, hw.trans h⟩
    · exact .inr (.inr (.inr (.inr (.inr (.inr (.inr (.inl ⟨c, v, he, hd, hf, hw.trans h⟩)))))))
    · exact .inr (.inr (.inr (.inr (.inr (.inr (.inr (.inr (.inl ⟨he, hd, hf, hw.trans h⟩))))))))
  · exact .inr (.inl ⟨hd, writeCmd_of_decode hc s⟩)
  · have hw : writeCmd d s = execClrovf s := writeCmd_of_decode hc s
    cases he : s.eng.err
    · exact .inr (.inr (.inr (.inr (.inr (.inr (.inr (.inr (.inr (.inl ⟨rfl, hd, hw.trans (gated_of_not_err he)⟩)))))))))
    · exact .inl ⟨rfl, by rw [hd]; decide, by rw [hd]; decide, hw.trans (gated_of_err he)⟩
  · have hw : writeCmd d s = execFlush s := writeCmd_of_decode hc s
    cases he : s.eng.err
    · exact .inr (.inr (.inr (.inr (.inr (.inr (.inr (.inr (.inr (.inr ⟨rfl, hd, hw.trans (gated_of_not_err he)⟩)))))))))
    · exact .inl ⟨rfl, by rw [hd]; decide, by rw [hd]; decide, hw.trans (gated_of_err he)⟩
  · exact .inr (.inr (.inl ⟨hd, writeCmd_of_decode hc s⟩))
  · have hw : writeCmd d s = illegalCommand d s := by
      unfold writeCmd
      rw [hc]
    cases he : s.eng.err
    · exact .inr (.inr (.inr (.inl ⟨rfl, hc, hw.trans (gated_of_not_err he)⟩)))
    · exact .inl ⟨rfl, h3, hF, hw.trans (gated_of_err he)⟩

/-- Everything a write can do: a command at CMD, a store, or a refusal (R62, R76). -/
theorem execWr_cases (a : Nat) (d : Word) (s : State) :
    (a = 0 ∧ execWr a d s = writeCmd d s) ∨
    (∃ e, a ≠ 0 ∧ storeWord s.eng a d = some e ∧ execWr a d s = writeOkay { s with eng := e }) ∨
    (a ≠ 0 ∧ storeWord s.eng a d = none ∧ execWr a d s = refuseWrite s) := by
  by_cases h0 : a = 0
  · subst h0
    exact .inl ⟨rfl, rfl⟩
  · have hr : region a ≠ .cmd := fun h => h0 (region_eq_cmd.1 h)
    have hx : execWr a d s =
        match storeWord s.eng a d with
        | some e => writeOkay { s with eng := e }
        | none => refuseWrite s := by
      unfold execWr
      cases h : region a <;> first | rfl | exact absurd h hr
    cases hs : storeWord s.eng a d with
    | none => exact .inr (.inr ⟨h0, rfl, by rw [hx, hs]⟩)
    | some e => exact .inr (.inl ⟨e, h0, rfl, by rw [hx, hs]⟩)

/-- Everything an operation can do: a read, an accepted store, a refused store, or the write of a word to CMD
(as a transaction, or as the command that the word is). -/
theorem exec_cases (i : Instr) (s : State) :
    (∃ a, i = .rd a ∧ exec i s = .next (s.respond
      (match readWord s.eng a with
       | some d => .read d .okay
       | none => .read 0#32 .error))) ∨
    (∃ a d e, i = .wr a d ∧ a ≠ 0 ∧ storeWord s.eng a d = some e ∧
      exec i s = writeOkay { s with eng := e }) ∨
    (∃ a d, i = .wr a d ∧ a ≠ 0 ∧ storeWord s.eng a d = none ∧ exec i s = refuseWrite s) ∨
    (∃ d, (i = .wr 0 d ∨ ∃ c : Command, i = c.toInstr ∧ d = encodeCommand c) ∧ exec i s = writeCmd d s) := by
  have hc : ∀ c : Command, (∃ d, ((c.toInstr : Instr) = .wr 0 d ∨
      ∃ c' : Command, c.toInstr = c'.toInstr ∧ d = encodeCommand c') ∧ exec c.toInstr s = writeCmd d s) :=
    fun c => ⟨encodeCommand c, .inr ⟨c, rfl, rfl⟩, (writeCmd_of_decode (decodeCommand_encodeCommand c) s).symm⟩
  cases i with
  | rd a => exact .inl ⟨a, rfl, execRd_eq a s⟩
  | wr a d =>
    rcases execWr_cases a d s with ⟨rfl, h⟩ | ⟨e, h0, hs, h⟩ | ⟨h0, hs, h⟩
    · exact .inr (.inr (.inr ⟨d, .inl rfl, h⟩))
    · exact .inr (.inl ⟨a, d, e, rfl, h0, hs, h⟩)
    · exact .inr (.inr (.inl ⟨a, d, rfl, h0, hs, h⟩))
  | nop => exact .inr (.inr (.inr (hc .nop)))
  | fwd => exact .inr (.inr (.inr (hc .fwd)))
  | bwd => exact .inr (.inr (.inr (hc .bwd)))
  | clrerr => exact .inr (.inr (.inr (hc .clrerr)))
  | clrovf => exact .inr (.inr (.inr (hc .clrovf)))
  | flush => exact .inr (.inr (.inr (hc .flush)))
  | srst => exact .inr (.inr (.inr (hc .srst)))

/-- A step with a transaction on the bus runs the operation it decodes to. -/
theorem step_transfer {s : State} {q : Request} {rest : List Input} (h : s.pending = .transfer q :: rest) :
    step s =
      match decodeRequest q with
      | .ok i => exec i { s with pending := rest }
      | .error _ => .fault .notATransaction := by
  cases hd : decodeRequest q <;> simp only [step, State.accept, h, hd]

/-- A step with a pulse of the reset input resets the instance. -/
theorem step_reset {s : State} {rest : List Input} (h : s.pending = .reset :: rest) :
    step s = .next ({ s with pending := rest } : State).resetCore := by
  simp only [step, State.accept, h]

/-- A step with nothing on the bus changes nothing. -/
theorem step_idle {s : State} (h : s.pending = []) : step s = .next s := by
  simp only [step, State.accept, h]

/-- Everything a step that goes on can do: nothing on an empty bus, a reset, or the operation that the next
transaction decodes to. -/
theorem step_next_cases {s t : State} (h : step s = .next t) :
    (s.pending = [] ∧ t = s) ∨
    (∃ rest, s.pending = .reset :: rest ∧ t = ({ s with pending := rest } : State).resetCore) ∨
    (∃ q rest i, s.pending = .transfer q :: rest ∧ decodeRequest q = .ok i ∧
      exec i { s with pending := rest } = .next t) := by
  match hp : s.pending with
  | [] =>
    rw [step_idle hp] at h
    exact .inl ⟨rfl, (Host.Outcome.next.inj h).symm⟩
  | .reset :: rest =>
    rw [step_reset hp] at h
    exact .inr (.inl ⟨rest, rfl, (Host.Outcome.next.inj h).symm⟩)
  | .transfer q :: rest =>
    rw [step_transfer hp] at h
    cases hd : decodeRequest q with
    | ok i =>
      rw [hd] at h
      exact .inr (.inr ⟨q, rest, i, rfl, hd, h⟩)
    | error e =>
      rw [hd] at h
      cases h

/-- A read that returns a word. -/
theorem exec_rd_some {a : Nat} {s : State} {d : Word} (h : readWord s.eng a = some d) :
    exec (.rd a) s = .next (s.respond (.read d .okay)) := by
  show execRd a s = _
  rw [execRd_eq, h]

/-- A refused read. -/
theorem exec_rd_none {a : Nat} {s : State} (h : readWord s.eng a = none) :
    exec (.rd a) s = .next (s.respond (.read 0#32 .error)) := by
  show execRd a s = _
  rw [execRd_eq, h]

/-- An accepted buffer write. -/
theorem exec_wr_some {a : Nat} {d : Word} {s : State} {e : Engine} (h : storeWord s.eng a d = some e) :
    exec (.wr a d) s = writeOkay { s with eng := e } := by
  show execWr a d s = _
  rcases execWr_cases a d s with ⟨rfl, _⟩ | ⟨e', _, h', hx⟩ | ⟨_, h', _⟩
  · simp [storeWord] at h
  · rw [h] at h'
    cases h'
    exact hx
  · rw [h] at h'
    cases h'

/-- A refused write, other than to CMD. -/
theorem exec_wr_none {a : Nat} {d : Word} {s : State} (h0 : a ≠ 0) (h : storeWord s.eng a d = none) :
    exec (.wr a d) s = refuseWrite s := by
  show execWr a d s = _
  rcases execWr_cases a d s with ⟨h', _⟩ | ⟨e, _, h', _⟩ | ⟨_, _, h'⟩
  · exact absurd h' h0
  · rw [h] at h'
    cases h'
  · exact h'

end Sys2Proof.Machine
end

