-- ==== Sys2Proof/Laws/PerInstr.lean ====
section
/-! SUPPORT. A law of every instruction as syntax: its encoding carries the fixed bits that its row of
spec/opcode_table.json gives (rules R102, R108). -/

namespace Sys2Proof.Laws.FixedBits

/-- The bits of an operation as one number, numbered as the opcode table numbers them. -/
def bits : Code → Nat
  | .c0 d => d.toNat
  | .t0 t => t.toNat

/-- The row of spec/opcode_table.json: the value (`match`) and the mask of its fixed bits. The pattern of
RD fixes bit 44 at 0 and bits 31:0 at 0, the pattern of WR fixes bit 44 at 1. -/
def row : Instr → Nat × Nat
  | .nop => (0x00000000, 0xFFFFFFFF)
  | .fwd => (0x00000001, 0xFFFFFFFF)
  | .bwd => (0x00000002, 0xFFFFFFFF)
  | .clrerr => (0x00000003, 0xFFFFFFFF)
  | .clrovf => (0x00000004, 0xFFFFFFFF)
  | .flush => (0x00000005, 0xFFFFFFFF)
  | .srst => (0x0000000F, 0xFFFFFFFF)
  | .rd _ => (0x000000000000, 0x1000FFFFFFFF)
  | .wr _ _ => (0x100000000000, 0x100000000000)

/-- The encoding, under the row's mask, is the row's value. -/
def Statement (i : Instr) : Prop := bits (encode i) &&& (row i).2 = (row i).1

theorem nop : Statement .nop := rfl
theorem fwd : Statement .fwd := rfl
theorem bwd : Statement .bwd := rfl
theorem clrerr : Statement .clrerr := rfl
theorem clrovf : Statement .clrovf := rfl
theorem flush : Statement .flush := rfl
theorem srst : Statement .srst := rfl

/-- A record's bits under a mask, as a bit vector. -/
theorem record_mask (t m p : BitVec 45) (h : t &&& m = p) : t.toNat &&& m.toNat = p.toNat := by
  rw [← BitVec.toNat_and, h]

theorem rd (addr : Nat) : Statement (.rd addr) := by
  refine record_mask _ 0x1000FFFFFFFF#45 0#45 ?_
  apply BitVec.eq_of_getLsbD_eq
  intro i hi
  simp only [encodeRecord, BitVec.getLsbD_and, BitVec.getLsbD_append, BitVec.getLsbD_zero]
  split
  · rfl
  · split
    · have hm : ∀ j : Fin 45, 32 ≤ j.val → j.val < 44 → (0x1000FFFFFFFF#45).getLsbD j.val = false := by decide
      rw [hm ⟨i, hi⟩ (by dsimp only; omega) (by dsimp only; omega), Bool.and_false]
    · obtain rfl : i = 44 := by omega
      rfl

theorem wr (addr : Nat) (data : Word) : Statement (.wr addr data) := by
  refine record_mask _ 0x100000000000#45 0x100000000000#45 ?_
  apply BitVec.eq_of_getLsbD_eq
  intro i hi
  have hm : ∀ j : Fin 45, j.val < 44 → (0x100000000000#45).getLsbD j.val = false := by decide
  simp only [encodeRecord, BitVec.getLsbD_and, BitVec.getLsbD_append]
  by_cases h : i < 44
  · rw [hm ⟨i, hi⟩ h, Bool.and_false]
  · obtain rfl : i = 44 := by omega
    rfl

end Sys2Proof.Laws.FixedBits
end

