-- ==== Sys2Proof/Laws/Safety.lean ====
section
/-! SUPPORT. Agreement of two instances (`Engine.Agree`) carried through the pure reads, stores and checks. -/

namespace Sys2Proof.Machine

/-- Instances that agree read the same everywhere. -/
theorem Engine.Agree.readWord_eq {a b : Engine} (h : a.Agree b) (x : Nat) : readWord a x = readWord b x := by
  rcases address_cases x with c | c | rfl | ⟨_, _, r, hr⟩ | ⟨i, rfl⟩ | ⟨i, rfl⟩ | ⟨i, rfl⟩ | ⟨i, rfl⟩
  · simp [readWord, c]
  · simp [readWord, c]
  · rfl
  · simp only [readWord, hr]
    cases r <;> simp [ctlRead, Engine.status, Engine.qmv, Engine.sbv, Engine.cbv, h.err, h.ovf, h.qmm, h.sbm,
      h.cbm, h.pbv, h.cause, h.info]
  · simp only [readWord, region_qm]
    rw [← h.qmm]
    split
    · rw [h.qm i (by assumption)]
    · rfl
  · simp only [readWord, region_sb]
    rw [← h.sbm]
    split
    · congr 1
      apply word_eq_of_bytes
      intro j
      rw [wordByte_packWord, wordByte_packWord]
      exact h.sb ⟨4 * i.val + j.val, by omega⟩ (by simpa [show (4 * i.val + j.val) / 4 = i.val by omega])
    · rfl
  · simp only [readWord, region_cb]
    rw [← h.cbm]
    split
    · congr 1
      apply word_eq_of_bytes
      intro j
      rw [wordByte_packWord, wordByte_packWord]
      exact h.cb ⟨4 * i.val + j.val, by omega⟩ (by simpa [show (4 * i.val + j.val) / 4 = i.val by omega])
    · rfl
  · simp only [readWord, region_pb]
    rw [← h.pbv]
    split
    · rw [h.pb (by assumption)]
    · rfl

/-- A store to one word keeps agreement on the valid words of a byte buffer. -/
theorem unpackWord_agree {v u : Block} {m : BitVec 16} (w : Fin 16) (d : Word)
    (h : ∀ i : Fin 64, m.getLsbD (i.val / 4) = true → v[i] = u[i]) (i : Fin 64)
    (hi : (setMask m w).getLsbD (i.val / 4) = true) : (unpackWord v w d)[i] = (unpackWord u w d)[i] := by
  show (unpackWord v w d)[i.val] = (unpackWord u w d)[i.val]
  rw [getElem_unpackWord, getElem_unpackWord]
  split
  · rfl
  · rename_i hk
    rw [getLsbD_setMask m w ⟨i.val / 4, by omega⟩] at hi
    have hne : (⟨i.val / 4, by omega⟩ : Fin 16) ≠ w := fun he => hk (by rw [← he])
    simp [hne] at hi
    exact h i hi

/-- Instances that agree refuse the same stores, and agree after an accepted one. -/
theorem Engine.Agree.storeWord_agree {a b : Engine} (h : a.Agree b) (x : Nat) (d : Word) :
    (storeWord a x d = none ∧ storeWord b x d = none) ∨
    ∃ a' b', storeWord a x d = some a' ∧ storeWord b x d = some b' ∧ a'.Agree b' := by
  cases hs : storeWord a x d with
  | none =>
    left
    refine ⟨rfl, ?_⟩
    unfold storeWord at hs ⊢
    revert hs
    cases region x <;> simp
  | some e =>
    right
    rcases storeWord_cases hs with ⟨i, rfl, hd, rfl⟩ | ⟨w, rfl, rfl⟩ | ⟨w, rfl, rfl⟩
    · refine ⟨_, b.storeQm i d, rfl, by rw [storeWord_qm, if_pos hd], { h with qmm := by simp [h.qmm], qm := ?_ }⟩
      intro j hj
      simp only [Engine.storeQm_qmm] at hj
      rw [getLsbD_setMask] at hj
      by_cases hij : j = i
      · subst hij
        simp
      · have hv : i.val ≠ j.val := fun he => hij (Fin.ext he.symm)
        simp [hij] at hj
        have hq := h.qm j hj
        simp [*]
        simpa using hq
    · exact ⟨_, b.storeSb w d, rfl, by rw [storeWord_sb],
        { h with sbm := by simp [h.sbm], sb := fun i hi => unpackWord_agree w d h.sb i hi }⟩
    · exact ⟨_, b.storeCb w d, rfl, by rw [storeWord_cb],
        { h with cbm := by simp [h.cbm], cb := fun i hi => unpackWord_agree w d h.cb i hi }⟩

/-- Instances that agree find the same fault in the matrix. -/
theorem Engine.Agree.matrixFault_eq {a b : Engine} (h : a.Agree b) : matrixFault a = matrixFault b := by
  unfold matrixFault
  rw [← h.qmm]
  cases hc : lowestClear a.qmm with
  | some i => rfl
  | none =>
    have hq : a.qm = b.qm := by
      apply Vector.ext
      intro i hi
      exact h.qm ⟨i, hi⟩ (by rw [(lowestClear_eq_none _).1 hc, BitVec.getLsbD_allOnes]; simpa using hi)
    rw [hq]

/-- Instances that agree raise the same faults at FWD. -/
theorem Engine.Agree.forwardFault_eq {a b : Engine} (h : a.Agree b) : forwardFault a = forwardFault b := by
  unfold forwardFault
  rw [h.matrixFault_eq, h.sbm]

/-- Instances that agree raise the same faults at BWD. -/
theorem Engine.Agree.backwardFault_eq {a b : Engine} (h : a.Agree b) : backwardFault a = backwardFault b := by
  unfold backwardFault
  rw [h.matrixFault_eq, h.cbm]

end Sys2Proof.Machine
end

