-- ==== Sys2Proof/Laws/Script.lean ====
section
/-! SUPPORT. Scripts and programs: what an expansion holds, what an assembled script is, and the run of a
program taken apart. -/

namespace Sys2Proof.Machine

/-- A script assembles exactly when all its statements are in the syntax, and then to its expansion. -/
theorem assemble_eq_some {p : List Statement} {prog : List Request} :
    assemble p = some prog ↔ (∀ t ∈ p, t.wf = true) ∧ expandScript p = prog := by
  unfold assemble
  split <;> simp_all

@[simp] theorem writeRequest_wf (a : Nat) (d : Word) : (writeRequest a d).wf = true := rfl

@[simp] theorem readRequest_wf (a : Nat) : (readRequest a).wf = true := rfl

/-- Every statement expands to transactions only. -/
theorem Statement.wf_of_mem_expand (t : Statement) {q : Request} (h : q ∈ t.expand) : q.wf = true := by
  cases t <;>
    simp only [Statement.expand, loadEntry, loadBytes, readBytes, List.mem_singleton, List.mem_map] at h <;>
    first | (subst h; rfl) | (obtain ⟨_, _, rfl⟩ := h; rfl)

/-- An assembled script is a program (R112). -/
theorem wf_of_mem_assemble {p : List Statement} {prog : List Request} (h : assemble p = some prog)
    {q : Request} (hq : q ∈ prog) : q.wf = true := by
  obtain ⟨-, rfl⟩ := assemble_eq_some.1 h
  obtain ⟨t, -, ht⟩ := List.mem_flatMap.1 hq
  exact t.wf_of_mem_expand ht

/-- The bytes of `LDSB` are in range when the statement is in the syntax (R111). -/
theorem Statement.wf_ldsb {b : Vector Int 64} :
    (Statement.ldsb b).wf = true ↔ ∀ i : Fin 64, -128 ≤ b[i] ∧ b[i] ≤ 127 := by
  simp [Statement.wf, indices]

/-- The bytes of `LDCB` are in range when the statement is in the syntax (R111). -/
theorem Statement.wf_ldcb {b : Vector Int 64} :
    (Statement.ldcb b).wf = true ↔ ∀ i : Fin 64, -128 ≤ b[i] ∧ b[i] ≤ 127 := by
  simp [Statement.wf, indices]

/-- The word that `LDSB` and `LDCB` write carries the listed integers themselves, and not only their residues,
when the statement is in the syntax (R12, R111). -/
theorem s8_wordByte_loadBytes {b : Vector Int 64} (hb : ∀ i : Fin 64, -128 ≤ b[i] ∧ b[i] ≤ 127)
    (w : Fin 16) (j : Fin 4) :
    s8 (wordByte (packWord (tabulate fun i => u8 b[i]) w) j) = b[4 * w.val + j.val] := by
  have h := hb ⟨4 * w.val + j.val, by omega⟩
  rw [wordByte_packWord, getElem_tabulate]
  exact s8_u8 h.1 h.2

/-- The run of two programs one after the other. -/
theorem runProgram_append (p p' : List Request) (s : State) :
    runProgram (p ++ p') s =
      match runProgram p s with
      | .next u => runProgram p' u
      | .fault r => .fault r
      | .refused r => .refused r := by
  induction p generalizing s with
  | nil => rfl
  | cons q rest ih =>
    simp only [List.cons_append, runProgram]
    cases step (s.issueNext q) with
    | next u => exact ih u
    | fault r => rfl
    | refused r => rfl

/-- A transaction put on the bus is executed by the next step, at the state as it was. -/
theorem step_issueNext {q : Request} {i : Instr} (h : decodeRequest q = .ok i) (s : State) :
    step (s.issueNext q) = exec i s := by
  rw [step_transfer (s := s.issueNext q) rfl, h]
  rfl

end Sys2Proof.Machine
end

