-- ==== Sys2Proof/Tests/Slice0.lean ====
section
/-! SUPPORT. Tests on small states, with results taken from 95_test_vectors.md, and one witness for the
hypotheses of every statement. -/

namespace Sys2Proof.Tests
open Sys2Proof.Machine Sys2Proof.Spec

/-! ### Helpers -/

/-- The machine with this instance, nothing pending, nothing answered. -/
def machine (e : Engine) : State := { State.reset with eng := e }

/-- An instance with a constant matrix, a constant `SB` and `CB`, and everything valid. -/
def loaded (q : Half) (s c : Byte) : Engine :=
  { Engine.reset with
    qm := Vector.replicate 64 q, qmm := BitVec.allOnes 64,
    sb := Vector.replicate 64 s, sbm := BitVec.allOnes 16,
    cb := Vector.replicate 64 c, cbm := BitVec.allOnes 16, pbv := true }

/-- The instance in the fault state with the record of vector K2. -/
def failed (e : Engine) : Engine := faultRecord e .qmZero 37#32

/-- The last response of a step. -/
def lastResponse : Result → Option Response
  | .next s => s.trace.head?
  | .fault _ => none
  | .refused _ => none

/-- The instance after a step. -/
def engineOf : Result → Option Engine
  | .next s => some s.eng
  | .fault _ => none
  | .refused _ => none

/-! ### Well-formedness: ill-formed terms are refused -/

theorem test_wf_rd_out_of_window : Instr.wf (.rd 0x1000) = false := by decide
theorem test_wf_wr_out_of_window : Instr.wf (.wr 0x1000 0#32) = false := by decide

theorem test_assemble_refuses : assemble [.rdst, .ldsb (Vector.replicate 64 128)] = none := by decide

theorem test_wf_read_with_data : Request.wf ⟨false, 0x010, 1#32⟩ = false := by decide

/-! ### Decoding: words from vectors E1 and E3, written as they stand there -/

theorem test_decode_nop : decode (.c0 0x00000000#32) = .ok .nop := by decide
theorem test_decode_fwd : decode (.c0 0x00000001#32) = .ok .fwd := by decide
theorem test_decode_bwd : decode (.c0 0x00000002#32) = .ok .bwd := by decide
theorem test_decode_clrerr : decode (.c0 0x00000003#32) = .ok .clrerr := by decide
theorem test_decode_clrovf : decode (.c0 0x00000004#32) = .ok .clrovf := by decide
theorem test_decode_flush : decode (.c0 0x00000005#32) = .ok .flush := by decide
theorem test_decode_srst : decode (.c0 0x0000000F#32) = .ok .srst := by decide
theorem test_decode_rd : decode (.t0 0x02BC00000000#45) = .ok (.rd 0x2BC) := by decide
theorem test_decode_wr : decode (.t0 0x11FC00000063#45) = .ok (.wr 0x1FC 0x63#32) := by decide
theorem test_decode_illegal : ([0x06#32, 0x0E#32, 0x10#32, 0xFF#32, 0x100#32, 0x101#32, 0x8000000F#32,
    0xFFFFFFFF#32].all fun d => decide (decode (.c0 d) = .error (.illegalCommand d))) = true := by
  decide
theorem test_decode_read_with_data : decode (.t0 0x001000000001#45) = .error (.readWithData 1#32) := by decide
theorem test_decode_table_words : decodeTableWord 32 0xF = some .srst ∧
    decodeTableWord 48 0x1200C2BDB7B4 = some (.wr 0x200 0xC2BDB7B4#32) := by decide

/-! ### Primitives and tables: vectors V1, V2, V3, V5 -/

theorem test_rhaq : rhaq 5 10 = 1 ∧ rhaq (-5) 10 = -1 ∧ rhaq (-4) 10 = 0 ∧ rhaq 25 10 = 3 ∧ rhaq (-7) 2 = -4 ∧
    rhaq (-2) 3 = -1 := by decide
theorem test_sat8 : sat8 128 = 127 ∧ sat8 (-129) = -128 ∧ sat8 131 = 127 := by decide
theorem test_crom_folding : ∀ m p : Fin 8, crom m p = cromFolded m p := by decide
theorem test_crom_columns : (sum8 fun m => crom m 1 * crom m 3) = 46304 ∧
    (sum8 fun m => crom m 1 * crom m 1) = 17179892270 := by decide
theorem test_zz : zz 7 = 28 ∧ zz 56 = 35 ∧ izz 2 = 8 ∧ izz 35 = 56 := by decide

/-- The parameter `NUM` selects the datapath that the meanings use (R9, R128). -/
theorem test_datapath_of_num : datapathOf Config.NUM hwZigzag = hwDatapath := rfl

/-! ### The transforms -/

/-- Vector F6: an impulse, one entry of each of the three normalisation classes; index 4 is the entry in
which the fixed-point datapath differs from the real one. -/
theorem test_fwd_impulse : quantize (fun j => if j = 0 then 100 else 0) (fun _ => 1) 0 = 13 ∧
    quantize (fun j => if j = 0 then 100 else 0) (fun _ => 1) 4 = 12 ∧
    quantize (fun j => if j = 0 then 100 else 0) (fun _ => 1) 9 = 24 := by decide

/-- Vector F9: a horizontal ramp gives row `p = 0` only. -/
theorem test_fwd_orientation :
    quantize (fun j => 4 * (colOf j).val - 14) (fun _ => 1) 1 = -73 ∧
    quantize (fun j => 4 * (colOf j).val - 14) (fun _ => 1) 8 = 0 := by decide

/-- Vector B5: the coefficient at zigzag position 1 varies along each row. -/
theorem test_bwd_orientation :
    idctq hwZigzag (fun k => if k = 1 then 100 else 0) (fun _ => 1) 0 = 145 ∧
    idctq hwZigzag (fun k => if k = 1 then 100 else 0) (fun _ => 1) 1 = 143 ∧
    idctq hwZigzag (fun k => if k = 1 then 100 else 0) (fun _ => 1) 8 = 145 := by decide

/-! ### Single steps -/

/-- Vector F12: entries 0 to 62 written, 63 not. -/
theorem test_fwd_qm_unset :
    (engineOf (exec .fwd (machine { loaded 16 0 0 with qmm := 0x7FFFFFFFFFFFFFFF#64 }))).map
      (fun e => (e.err, e.cause, e.info, e.sbm)) = some (true, .qmUnset, 63#32, 0xFFFF#16) := by decide

/-- Program P5: fifteen of the sixteen words loaded. -/
theorem test_bwd_cb_incomplete :
    (engineOf (exec .bwd (machine { loaded 16 0 0 with cbm := 0x7FFF#16 }))).map
      (fun e => (e.err, e.cause, e.info, e.cbm)) = some (true, .cbIncomplete, 15#32, 0x7FFF#16) := by
  decide

/-- Vector K1. -/
theorem test_nop_refused : lastResponse (exec .nop (machine (failed (loaded 16 0 0)))) = some (.write .error) := by
  decide

/-- Vector K2. -/
theorem test_clrerr : (engineOf (exec .clrerr (machine (failed { loaded 16 0 0 with ovf := true })))).map
    Engine.status = some 0x3E#32 := by decide

/-- Vector K3. -/
theorem test_clrovf :
    (engineOf (exec .clrovf (machine { loaded 16 0 0 with ovf := true, sbm := 0#16, pbv := false }))).map
      Engine.status = some 0x14#32 := by decide

/-- Vector K4. -/
theorem test_flush : (engineOf (exec .flush (machine (loaded 16 0 0)))).map Engine.status = some 0x04#32 := by
  decide

/-- Vector K5. -/
theorem test_srst : (engineOf (exec .srst (machine (failed (loaded 16 0 0))))).map
    (fun e => (e.status, e.qmm, e.info)) = some (0#32, 0#64, 0#32) := by decide

/-- The bus list of section 7: a stored word of `SB` reads back, its third byte is -1. -/
theorem test_wr_rd_sb :
    (engineOf (exec (.wr 0x204 0x80FF7F01#32) (machine Engine.reset))).map
      (fun e => (e.sb[4], e.sb[7], readWord e 0x204)) = some (1#8, 0x80#8, some 0x80FF7F01#32) := by
  decide

/-- The bus list of section 7: a data word too wide for `QM` is refused. -/
theorem test_wr_qm_too_wide :
    lastResponse (exec (.wr 0x104 0x00010000#32) (machine Engine.reset)) = some (.write .error) := by
  decide

/-- Two of the codes of R250. -/
theorem test_causes : (lastResponse (exec (.rd 0x008) (machine (faultRecord Engine.reset .cbIncomplete 0#32))),
    lastResponse (exec (.rd 0x008) (machine (failed Engine.reset)))) =
    (some (.read 5#32 .okay), some (.read 3#32 .okay)) := by decide

theorem test_rd_id : lastResponse (exec (.rd 0x010) (machine Engine.reset)) =
    some (.read 0x44435438#32 .okay) := by decide

/-- Program P3, first line, as the first step after reset through the bus. -/
theorem test_step_first_fwd : lastResponse (step (State.reset.withFetchWord 32 1)) = some (.write .error) := by
  decide

/-! ### The hypotheses of the statements can be met -/

theorem good_loaded : MatrixGood (loaded 16 0 0) := by
  unfold MatrixGood
  decide

theorem witness_DecodeOfEncode : Instr.wf .fwd = true ∧ Instr.wf (.rd 0) = true ∧ Instr.wf (.rd 0xFFF) = true ∧
    Instr.wf (.wr 0xFFF 0xFFFFFFFF#32) = true := by decide

theorem witness_EncodeOfDecode : decode (.c0 0xF#32) = .ok .srst ∧
    decode (.t0 0x1FFFFFFFFFFF#45) = .ok (.wr 0xFFF 0xFFFFFFFF#32) := by decide

theorem witness_CommandRowsDecideTheWord :
    (∃ r ∈ commandRows, 0xF#32 &&& r.mask = r.pattern) ∧ (∃ r ∈ commandRows, 0x0#32 &&& r.mask = r.pattern) ∧
    ∀ r ∈ commandRows, 0x10F#32 &&& r.mask ≠ r.pattern := by decide

theorem witness_MisalignedTransactionsRefused : 0x001 % 4 ≠ 0 ∧ 0x202 % 4 ≠ 0 ∧ 0x1003 % 4 ≠ 0 := by decide

theorem witness_UnmappedTransactionsRefused : ∀ a ∈ [0x024, 0x0FC, 0x2C0, 0xFFC, 0x1000],
    (0x024 ≤ a ∧ a ≤ 0x0FC) ∨ (0x2C0 ≤ a ∧ a ≤ 0xFFC) ∨ 0x1000 ≤ a := by decide

theorem witness_ReadOnlyWritesRefused : ∀ a ∈ [0x004, 0x020, 0x280, 0x2BC],
    (0x004 ≤ a ∧ a ≤ 0x020) ∨ (0x280 ≤ a ∧ a ≤ 0x2BC) := by decide

theorem witness_QmWriteStoresOrRefuses : (0x10000#32).extractLsb' 16 16 ≠ 0#16 ∧
    (0xFFFF#32).extractLsb' 16 16 = 0#16 ∧ (0#32).extractLsb' 16 16 = 0#16 := by decide

theorem witness_QmReadReturnsValidEntry : (loaded 16 0 0).qmm.getLsbD 0 = true ∧
    (loaded 16 0 0).qmm.getLsbD 63 = true ∧ Engine.reset.qmm.getLsbD 0 = false ∧
    Engine.reset.qmm.getLsbD 63 = false := by decide

theorem witness_SbCbReadReturnsPackedWord : (loaded 16 0 0).sbm.getLsbD 15 = true ∧
    Engine.reset.sbm.getLsbD 0 = false ∧ (loaded 16 0 0).cbm.getLsbD 15 = true ∧
    Engine.reset.cbm.getLsbD 0 = false := by decide

theorem witness_PbReadReturnsPackedWord : (loaded 16 0 0).pbv = true ∧ Engine.reset.pbv = false := by decide

theorem witness_ControlRegisterReads : 0x000 % 4 = 0 ∧ 0x020 % 4 = 0 ∧ 0x020 ≤ 0x020 := by decide

theorem witness_TransactionsIdempotentButCmd : (0x1FC : Nat) ≠ 0 ∧
    (Resp.error = .error → (0#32 : Word) = 0#32) := by decide

/-- An accepted write to `QM[63]`, and a read of another buffer address, at both ends of the buffer range. -/
theorem witness_BufferReadAfterWrite : (0x1FC : Nat) ≠ 0 ∧ (∃ e, exec (.wr 0x1FC 0x63#32) State.reset =
      .next (after State.reset (.write .okay) e)) ∧
    (0x100 ≤ 0x100 ∧ 0x100 ≠ 0x1FC ∧
      exec (.rd 0x100) State.reset = .next (after State.reset (.read 0#32 .error) State.reset.eng)) ∧
    (0x2BC < 0x2C0 ∧ 0x2BC ≠ 0x1FC ∧
      exec (.rd 0x2BC) State.reset = .next (after State.reset (.read 0#32 .error) State.reset.eng)) := by
  refine ⟨by decide, ⟨State.reset.eng.storeQm 63 0x63#32, rfl⟩, ⟨by decide, by decide, rfl⟩,
    by decide, by decide, rfl⟩

/-- Every item of the list of R257 at a boundary of its range. -/
theorem witness_RefusalsAreTheListedOnes_read : ∀ a ∈ [0x1000, 0x3, 0x024, 0x0FC, 0x2C0, 0xFFC, 0x100, 0x1FC,
    0x200, 0x23C, 0x240, 0x27C, 0x280, 0x2BC], ReadRefused Engine.reset a := by
  unfold ReadRefused
  decide +kernel

theorem witness_RefusalsAreTheListedOnes_readable : ∀ a ∈ [0x000, 0x020, 0x100, 0x1FC, 0x2BC],
    ¬ ReadRefused (loaded 16 0 0) a := by
  unfold ReadRefused
  decide +kernel

theorem witness_RefusalsAreTheListedOnes_write : ∀ a ∈ [0x1000, 0x3, 0x024, 0x0FC, 0x2C0, 0xFFC, 0x004, 0x020,
    0x280, 0x2BC], WriteRefused Engine.reset a 0#32 := by
  unfold WriteRefused
  decide

theorem witness_RefusalsAreTheListedOnes_data :
    WriteRefused Engine.reset 0x1FC 0x10000#32 ∧ WriteRefused (failed Engine.reset) 0x000 0x1#32 := by
  unfold WriteRefused
  decide

theorem witness_RefusalsAreTheListedOnes_writable : ¬ WriteRefused (failed Engine.reset) 0x000 0x3#32 ∧
    ¬ WriteRefused Engine.reset 0x1FC 0xFFFF#32 ∧ ¬ WriteRefused Engine.reset 0x000 0x101#32 := by
  unfold WriteRefused
  decide

theorem witness_BusIgnoresFaultState : (machine (loaded 16 0 0)) =
      { machine (failed (loaded 16 0 0)) with
        eng := { failed (loaded 16 0 0) with err := false, cause := .none, info := 0#32 } } ∧
    (0x1FC : Nat) ≠ 0 ∧ (0x000 : Nat) ≠ 0x004 :=
  ⟨rfl, by decide, by decide⟩

theorem witness_CmdWriteDispatch : (failed Engine.reset).err = true ∧ Engine.reset.err = false ∧
    (0x1#32 ≠ 0x3#32 ∧ 0x1#32 ≠ 0xF#32) ∧ 0xF#32 = encodeCommand .srst ∧ 0x0#32 = encodeCommand .nop ∧
    ∀ c : Command, 0x6#32 ≠ encodeCommand c := by
  refine ⟨rfl, rfl, by decide, rfl, rfl, fun c => ?_⟩
  cases c <;> decide

theorem witness_IllegalCommandFaults : Engine.reset.err = false ∧
    ([0x100#32, 0x80000000#32, 0x06#32, 0x0E#32, 0x10#32, 0xFF#32].all fun d => decide
      (d.extractLsb' 8 24 ≠ 0#24 ∨ (0x06 ≤ (d.extractLsb' 0 8).toNat ∧ (d.extractLsb' 0 8).toNat ≤ 0x0E) ∨
        0x10 ≤ (d.extractLsb' 0 8).toNat)) = true := by decide

theorem witness_QmUnsetFaults : Engine.reset.err = false ∧
    (Engine.reset.qmm.getLsbD 0 = false ∧ ∀ j : Fin 64, j < 0 → Engine.reset.qmm.getLsbD j = true) ∧
    (0x7FFFFFFFFFFFFFFF#64).getLsbD 63 = false ∧
    ∀ j : Fin 64, j < 63 → (0x7FFFFFFFFFFFFFFF#64).getLsbD j = true := by decide

/-- The matrix of vector F12 with zeros at 37 and 50. -/
theorem witness_QmZeroFaults : (loaded 16 0 0).err = false ∧ (loaded 16 0 0).qmm = BitVec.allOnes 64 ∧
    ((loaded 16 0 0).qm.set 37 0#16 |>.set 50 0#16)[37] = 0#16 ∧
    ∀ j : Fin 64, j < 37 → ((loaded 16 0 0).qm.set 37 0#16 |>.set 50 0#16)[j] ≠ 0#16 := by decide

/-- The masks of vector F12: words 0, 1 and 3 written, and words 0 to 14 written. -/
theorem witness_SbIncompleteFaults : (loaded 16 0 0).err = false ∧ MatrixGood (loaded 16 0 0) ∧
    ((0x000B#16).getLsbD 2 = false ∧ ∀ j : Fin 16, j < 2 → (0x000B#16).getLsbD j = true) ∧
    ((0x7FFF#16).getLsbD 15 = false ∧ ∀ j : Fin 16, j < 15 → (0x7FFF#16).getLsbD j = true) :=
  ⟨rfl, good_loaded, by decide, by decide⟩

theorem witness_CbIncompleteFaults : (loaded 16 0 0).err = false ∧ MatrixGood (loaded 16 0 0) ∧
    ((0x0000#16).getLsbD 0 = false ∧ ∀ j : Fin 16, j < 0 → (0x0000#16).getLsbD j = true) ∧
    ((0x7FFF#16).getLsbD 15 = false ∧ ∀ j : Fin 16, j < 15 → (0x7FFF#16).getLsbD j = true) :=
  ⟨rfl, good_loaded, by decide, by decide⟩

/-- The two states of the commands NOP, CLROVF and FLUSH. -/
theorem witness_NopDoesNothing : (machine Engine.reset).eng.err = false ∧
    (machine (failed Engine.reset)).eng.err = true := by decide

theorem witness_ClrovfClearsOverflow : (machine { Engine.reset with ovf := true }).eng.err = false ∧
    (machine (failed { Engine.reset with ovf := true })).eng.err = true := by decide

theorem witness_FlushInvalidatesBlockBuffers : (machine (loaded 16 0 0)).eng.err = false ∧
    (machine (failed (loaded 16 0 0))).eng.err = true ∧ (0x200 ≤ 0x200 ∧ 0x2BF < 0x2C0) := by decide

theorem witness_SrstResets : (0x100 ≤ 0x100 ∧ 0x100 < 0x2C0) ∧ (0x100 ≤ 0x2BF ∧ 0x2BF < 0x2C0) := by decide

theorem witness_CommandsByFaultState : Engine.reset.err = false ∧ (failed Engine.reset).err = true ∧
    Command.fwd ≠ .clrerr ∧ Command.fwd ≠ .srst ∧ ∀ c : Command, 0x77#32 ≠ encodeCommand c := by
  refine ⟨rfl, rfl, by decide, by decide, fun c => ?_⟩
  cases c <;> decide

theorem witness_FwdTransformsBlock : (loaded 16 0 0).err = false ∧ MatrixGood (loaded 16 0 0) ∧
    (loaded 16 0 0).sbm = BitVec.allOnes 16 := ⟨rfl, good_loaded, rfl⟩

theorem witness_BwdReconstructsBlock : (loaded 16 0 0).err = false ∧ MatrixGood (loaded 16 0 0) ∧
    (loaded 16 0 0).cbm = BitVec.allOnes 16 := ⟨rfl, good_loaded, rfl⟩

theorem witness_ConstantMidGreyRoundTrip : (loaded 16 0 0).err = false ∧ MatrixGood (loaded 16 0 0) ∧
    (loaded 16 0 0).sbm = BitVec.allOnes 16 ∧ ∀ i : Fin 64, (loaded 16 0 0).sb[i] = 0#8 :=
  ⟨rfl, good_loaded, rfl, by decide⟩

/-- One refusal and one fault, each with an ERROR response. -/
theorem witness_ErrorIsRefusalOrFault : (∃ t, exec (.rd 0x024) State.reset = .next t ∧
      t.trace = .read 0#32 .error :: State.reset.trace) ∧
    (∃ t, exec .fwd State.reset = .next t ∧ t.trace = .write .error :: State.reset.trace ∧ t.eng.err = true) ∧
    respOf (.read 0#32 .error) = .error ∧ respOf (.write .error) = .error := by
  refine ⟨⟨_, rfl, rfl⟩, ⟨_, rfl, rfl, rfl⟩, rfl, rfl⟩

theorem witness_FirstFaultWins : (∃ t, exec .fwd (machine (failed Engine.reset)) = .next t) ∧
    (∃ t, exec .clrerr (machine (failed Engine.reset)) = .next t) ∧
    (machine (failed Engine.reset)).eng.err = true := ⟨⟨_, rfl⟩, ⟨_, rfl⟩, rfl⟩

/-- A step that takes the reset input and one that runs CLRERR, both from the fault state and with `OVF` set. -/
theorem witness_FirstFaultWins_step :
    NextResets { machine (failed { Engine.reset with ovf := true }) with pending := [.reset] } ∧
    NextIssues ((machine (failed Engine.reset)).withFetchWord 32 3) .clrerr ∧
    (∃ t, step { machine (failed { Engine.reset with ovf := true }) with pending := [.reset] } = .next t ∧
      t.eng.err = false ∧ t.eng.ovf = false) ∧
    ∃ t, step ((machine (failed Engine.reset)).withFetchWord 32 3) = .next t ∧ t.eng.err = false :=
  ⟨⟨_, rfl⟩, ⟨_, _, _, rfl, rfl, .inr rfl⟩, ⟨_, rfl, rfl, rfl⟩, _, rfl, rfl⟩

/-- A step that runs CLROVF. -/
theorem witness_OverflowFlagIsSticky_step :
    NextIssues ((machine { Engine.reset with ovf := true }).withFetchWord 32 4) .clrovf ∧
    ∃ t, step ((machine { Engine.reset with ovf := true }).withFetchWord 32 4) = .next t ∧ t.eng.ovf = false :=
  ⟨⟨_, _, _, rfl, rfl, .inr rfl⟩, _, rfl, rfl⟩

theorem witness_MasksChangeOnlyAsListed : ∃ t, exec (.wr 0x23C 0#32) State.reset = .next t ∧
    t.eng.sbm ≠ State.reset.eng.sbm := ⟨_, rfl, by decide⟩

theorem witness_BuffersWrittenOnlyAsListed : ∃ t, exec (.wr 0x1FC 0x63#32) State.reset = .next t ∧
    ¬ Issues (.wr 0x1FC 0x63#32) .srst ∧ t.eng.qm[63] ≠ State.reset.eng.qm[63] := by
  refine ⟨_, rfl, ?_, by decide⟩
  unfold Issues
  decide

/-- The invariant holds in states with each cause, at the boundary of what `INFO` may be. -/
theorem witness_StepKeepsFaultRecordCoherent : ∀ e ∈ [Engine.reset, faultRecord Engine.reset .illegalCmd 0x6#32,
    faultRecord Engine.reset .qmUnset 63#32, failed Engine.reset, faultRecord Engine.reset .sbIncomplete 15#32,
    faultRecord Engine.reset .cbIncomplete 0#32], e.coherent = true := by decide

theorem witness_step_from_invariant : (machine Engine.reset).Inv ∧
    ∃ t, step ((machine Engine.reset).withFetchWord 32 1) = .next t ∧ t.eng.err = true :=
  ⟨rfl, _, rfl, rfl⟩

/-- Two machines that agree and differ in every unspecified byte. -/
theorem witness_UnspecifiedBytesUnobservable : (machine Engine.reset).Agree (machine
    { Engine.reset with sb := Vector.replicate 64 7#8, qm := Vector.replicate 64 9#16 }) := by
  refine ⟨⟨rfl, rfl, rfl, rfl, rfl, rfl, rfl, rfl, ?_, ?_, ?_, ?_⟩, rfl, rfl⟩ <;> intros <;>
    simp_all [machine, State.reset, Engine.reset]

theorem witness_SrstIsReset : ({ State.reset with pending := [.reset] } : State).pending = .reset :: [] := rfl

theorem witness_ResetConsequences : ResetGuards State.reset.eng ∧ 0x020 % 4 = 0 ∧ 0x020 ≤ 0x020 ∧
    0x020 ≠ 0x010 ∧ 0x2BC < 0x2C0 := by
  refine ⟨⟨rfl, rfl, rfl, rfl, rfl, rfl, rfl, rfl⟩, by decide⟩

theorem witness_StepRunsDecodedTransaction : (State.reset.issueNext (Request.ofCommandWord 1#32)).pending =
      .transfer ⟨true, 0, 1#32⟩ :: [] ∧ decodeRequest ⟨true, 0, 1#32⟩ = .ok (.wr 0 1#32) := ⟨rfl, rfl⟩

theorem witness_FetchedWordRunsDecodedInstr : decodeTableWord 32 0 = some .nop ∧
    decodeTableWord 45 0x02BC00000000 = some (.rd 0x2BC) ∧
    decodeTableWord 48 0x1FFFFFFFFFFF = some (.wr 0xFFF 0xFFFFFFFF#32) := by decide

theorem witness_IdleAndNonTransactions : State.reset.pending = [] ∧
    (State.reset.issueNext ⟨false, 0x010, 1#32⟩).pending = .transfer ⟨false, 0x010, 1#32⟩ :: [] ∧
    (1#32 : Word) ≠ 0#32 := by decide

theorem witness_ProgramsRunToTheirEnd : ∀ q ∈ expandScript [.rdst, .ldq 63 0xFFFF, .command .fwd, .rd 0x1000],
    q.wf = true := by decide

theorem witness_InstancesAreIndependent : (System.reset 2)[1] = ((System.reset 2).set 0 (machine (loaded 16 0 0)))[1] ∧
    ∃ u, System.step 1 (System.reset 2) = .next u := ⟨rfl, _, rfl⟩

theorem witness_RhaqRoundsTheQuotient : 0 < 1 := by decide

theorem witness_RhaqOddTiesAwayFromZero : 0 < 10 ∧ 2 * (-25 : Int).natAbs = (2 * 2 + 1) * 10 ∧
    2 * (5 : Int).natAbs = (2 * 0 + 1) * 10 := by decide

theorem witness_CosineRomIsRoundedBasis : (1 : Fin 8) ≠ 0 ∧ (7 : Fin 8) ≠ 0 := by decide

theorem witness_NormRomIsRoundedProduct : (0 : Fin 8) = 0 ∧ (7 : Fin 8) ≠ 0 := by decide

theorem witness_ConstantBlockHasDcOnly : ∀ i : Fin 64, 1 ≤ (fun _ => 1 : IntBlock) i := by decide

theorem witness_NoOverflowFromNineUp : (∀ i : Fin 64, -128 ≤ (fun _ => -128 : IntBlock) i ∧
    (fun _ => -128 : IntBlock) i ≤ 127) ∧ ∀ i : Fin 64, 9 ≤ (fun _ => 9 : IntBlock) i := by decide

/-! ### Evaluations that take the kernel longest, last so that nothing waits for them -/

theorem test_wf_ldsb_out_of_range : Statement.wf (.ldsb (Vector.replicate 64 128)) = false ∧
    Statement.wf (.ldcb ((Vector.replicate 64 0).set 63 (-129))) = false := by decide

/-- Vector F5 loads sixty-four samples of -128, the lowest value of the syntax; -128 and 127 both assemble. -/
theorem test_assemble_bounds :
    (assemble [.ldsb (Vector.replicate 64 (-128)), .ldcb (Vector.replicate 64 127)]).map
      (fun p => (p.head?, p.getLast?)) =
    some (some ⟨true, 0x200, 0x80808080#32⟩, some ⟨true, 0x27C, 0x7F7F7F7F#32⟩) := by decide

/-- Vector F2: `Q16`, sixty-four samples of 10. -/
theorem test_fwd_constant : (engineOf (exec .fwd (machine (loaded 16 10 0)))).map
    (fun e => (e.cb[0], e.cb[1], e.cb[63], e.cbm, e.sbm)) = some (5#8, 0#8, 0#8, 0xFFFF#16, 0#16) := by
  decide

/-- Vector F5: negative saturation sets `OVF`. -/
theorem test_fwd_saturates : (engineOf (exec .fwd (machine (loaded 1 0x80 0)))).map
    (fun e => (e.cb[0], e.cb[2], e.ovf)) = some (0x80#8, 0#8, true) := by decide

/-- Vector B2: `Q16`, only DC, 5. -/
theorem test_bwd_constant :
    (engineOf (exec .bwd (machine { loaded 16 0 0 with cb := (loaded 16 0 0).cb.set 0 5#8 }))).map
      (fun e => (e.pb[0], e.pb[63], e.pbv, e.cbm)) = some (138#8, 138#8, true, 0#16) := by decide

/-- Vector F5 sets `OVF`, and vector K3 clears it. -/
theorem witness_OverflowFlagIsSticky : (∃ t, exec .fwd (machine (loaded 1 0x80 0)) = .next t ∧ t.eng.ovf = true) ∧
    (machine (loaded 1 0x80 0)).eng.ovf = false ∧
    ∃ t, exec .clrovf (machine { Engine.reset with ovf := true }) = .next t ∧ t.eng.ovf = false := by
  refine ⟨⟨after (machine (loaded 1 0x80 0)) (.write .okay) (loaded 1 0x80 0).forward, ?_, ?_⟩, rfl, _, rfl, rfl⟩
  · show execFwd _ = _
    have hf : forwardFault (loaded 1 0x80 0) = none := by decide
    unfold execFwd
    show (match forwardFault (loaded 1 0x80 0) with
      | some (c, v) => raiseFault c v (machine (loaded 1 0x80 0))
      | none => _) = _
    rw [hf]
    rfl
  · decide

theorem witness_UnZigzagInvertsFlatten : hwZigzag.Valid := by
  refine ⟨izz_zz, zz_izz, rfl, fun k l h => ?_⟩
  have hm : Monotone fun k : Fin 64 => (izz k).val / 8 + (izz k).val % 8 :=
    Fin.monotone_iff_le_succ.2 (by decide)
  exact hm h

theorem witness_DcOnlyBlockIsConstant : hwZigzag.Valid ∧
    ∀ k : Fin 64, k ≠ 0 → (fun k => if k = 0 then -128 else 0 : IntBlock) k = 0 :=
  ⟨witness_UnZigzagInvertsFlatten, by decide⟩

end Sys2Proof.Tests
end

section
/-! PROOFS. The rounding functions of R15, and O50: `rhaq` of the integers computes `rha` of the real quotient.
Both are odd, so the statement reduces to a natural numerator, where the two floors are of the same quotient. -/

namespace Sys2Proof.Machine

theorem sgn_natCast (k : Nat) : sgn (k : Int) = 1 := if_neg (by omega)

theorem sgn_neg_of_ne_zero {n : Int} (h : n ≠ 0) : sgn (-n) = - sgn n := by
  unfold sgn
  split <;> split <;> omega

theorem rhaq_natCast (k d : Nat) : rhaq (k : Int) d = (((2 * k + d) / (2 * d) : Nat) : Int) := by
  rw [rhaq, sgn_natCast, Int.natAbs_natCast, one_mul]

theorem rhaq_neg (n : Int) (d : Nat) : rhaq (-n) d = - rhaq n d := by
  rcases eq_or_ne n 0 with rfl | h
  · simp
  · rw [rhaq, rhaq, sgn_neg_of_ne_zero h, Int.natAbs_neg, neg_mul]

theorem rha_of_nonneg {x : ℝ} (h : 0 ≤ x) : rha x = ⌊x + 1 / 2⌋ := by
  rw [rha, if_neg h.not_gt, abs_of_nonneg h]

theorem rha_of_neg {x : ℝ} (h : x < 0) : rha x = - ⌊-x + 1 / 2⌋ := by
  rw [rha, if_pos h, abs_of_neg h]

@[simp] theorem rha_zero : rha 0 = 0 := by
  rw [rha_of_nonneg le_rfl]
  norm_num

theorem rha_neg (x : ℝ) : rha (-x) = - rha x := by
  rcases lt_trichotomy x 0 with h | rfl | h
  · rw [rha_of_neg h, rha_of_nonneg (by linarith), neg_neg]
  · simp
  · rw [rha_of_neg (by linarith), rha_of_nonneg h.le, neg_neg]

/-- Adding one half to `k / d` gives the quotient whose floor R15 writes for `rhaq`. -/
theorem natCast_div_add_half (k : Nat) {d : Nat} (hd : 0 < d) :
    (k : ℝ) / d + 1 / 2 = ((2 * k + d : Nat) : ℝ) / (2 * d : Nat) := by
  have : (d : ℝ) ≠ 0 := by exact_mod_cast hd.ne'
  push_cast
  field_simp

theorem rha_natCast_div (k : Nat) {d : Nat} (hd : 0 < d) :
    rha ((k : ℝ) / d) = (((2 * k + d) / (2 * d) : Nat) : Int) := by
  rw [rha_of_nonneg (by positivity), natCast_div_add_half k hd, Int.floor_div_natCast,
    Int.floor_natCast, Int.natCast_div]

/-- Settles O50: by oddness of both sides it is enough to compare them at a natural numerator. -/
theorem rhaqRoundsTheQuotient : Obligations.RhaqRoundsTheQuotient := by
  intro n d hd
  have of_natCast (k : Nat) : rhaq k d = rha ((k : ℝ) / d) :=
    (rhaq_natCast k d).trans (rha_natCast_div k hd).symm
  obtain ⟨k, rfl | rfl⟩ := n.eq_nat_or_neg
  · rw [Int.cast_natCast, of_natCast]
  · rw [rhaq_neg, of_natCast, Int.cast_neg, neg_div, rha_neg, Int.cast_natCast]

end Sys2Proof.Machine
end

section
/-! PROOFS. What an operation can do to the engine, said once (`Effect`), and from it the statements about
the architectural state: O36 to O41, the fault record, the overflow flag, the masks and the buffers. -/

namespace Sys2Proof.Machine
open Sys2Proof.Spec

/-! ### The effect of an operation -/

/-- What the operation `i` may make of the engine `e`, with the response it then gives: one constructor per
state operation, each with the operations that perform it (R29, R31, R33, R48). -/
inductive Effect (i : Instr) (e : Engine) : Response → Engine → Prop
  /-- Reads, refusals and NOP. -/
  | unchanged (r : Response) : Effect i e r e
  | storeQm (j : Fin 64) (d : Word) (hd : d.toNat < 65536) (hi : i = .wr (0x100 + 4 * j.val) d) :
      Effect i e (.write .okay) (e.storeQm j d)
  | storeSb (w : Fin 16) (d : Word) (hi : i = .wr (0x200 + 4 * w.val) d) :
      Effect i e (.write .okay) (e.storeSb w d)
  | storeCb (w : Fin 16) (d : Word) (hi : i = .wr (0x240 + 4 * w.val) d) :
      Effect i e (.write .okay) (e.storeCb w d)
  /-- Fault entry, from outside the fault state only (R262, R265). -/
  | faulted (c : Cause) (v : Word) (he : e.err = false) (hc : (e.faulted c v).coherent = true) :
      Effect i e (.write .error) (e.faulted c v)
  | returned (hi : Issues i .clrerr) : Effect i e (.write .okay) e.returned
  | reset (n : Nat) (hi : Issues i .srst) : Effect i e (.write .okay) (Engine.afterReset n)
  | forward (hi : Issues i .fwd) : Effect i e (.write .okay) e.forward
  | backward (hi : Issues i .bwd) : Effect i e (.write .okay) e.backward
  | clearOvf (hi : Issues i .clrovf) : Effect i e (.write .okay) e.clearOvf
  | flushed (hi : Issues i .flush) : Effect i e (.write .okay) e.flushed

/-- The fault FWD raises leaves a coherent record. -/
theorem coherent_faulted_of_forwardFault {e : Engine} {c : Cause} {v : Word}
    (h : forwardFault e = some (c, v)) : (e.faulted c v).coherent = true := by
  rcases forwardFault_cause h with ⟨rfl | rfl, -, hv⟩ | ⟨rfl, hv⟩ <;> simp [Engine.coherent, hv]

/-- The fault BWD raises leaves a coherent record. -/
theorem coherent_faulted_of_backwardFault {e : Engine} {c : Cause} {v : Word}
    (h : backwardFault e = some (c, v)) : (e.faulted c v).coherent = true := by
  rcases backwardFault_cause h with ⟨rfl | rfl, -, hv⟩ | ⟨rfl, hv⟩ <;> simp [Engine.coherent, hv]

/-- A word that is no command leaves a coherent record. -/
theorem coherent_faulted_illegalCmd (e : Engine) {d : Word} (h : decodeCommand d = none) :
    (e.faulted .illegalCmd d).coherent = true := by
  simp [Engine.coherent, h]

/-- A command is known by its word. -/
theorem encodeCommand_injective : Function.Injective encodeCommand := fun c c' h =>
  Option.some.inj <| by rw [← decodeCommand_encodeCommand c, ← decodeCommand_encodeCommand c', h]

/-- An operation that puts the word of a command on CMD issues that command (R111). -/
theorem issues_of_word {i : Instr} {d : Word} {c : Command}
    (hi : i = .wr 0 d ∨ ∃ c' : Command, i = c'.toInstr ∧ d = encodeCommand c') (hd : d = encodeCommand c) :
    Issues i c := by
  rcases hi with rfl | ⟨c', rfl, h⟩
  · exact .inr (by rw [hd])
  · exact .inl (by rw [encodeCommand_injective (h.symm.trans hd)])

/-- Every accepted store is an effect of the write that makes it. -/
theorem effect_of_storeWord {s : State} {a : Nat} {d : Word} {e : Engine} (h : storeWord s.eng a d = some e) :
    Effect (.wr a d) s.eng (.write .okay) e := by
  rcases storeWord_cases h with ⟨j, rfl, hd, rfl⟩ | ⟨w, rfl, rfl⟩ | ⟨w, rfl, rfl⟩
  · exact .storeQm j d hd rfl
  · exact .storeSb w d rfl
  · exact .storeCb w d rfl

/-- The next state of a write to CMD by the operation `i`. -/
theorem writeCmd_effect {i : Instr} {d : Word} (s : State)
    (hi : i = .wr 0 d ∨ ∃ c : Command, i = c.toInstr ∧ d = encodeCommand c) :
    ∃ t r, writeCmd d s = .next t ∧ t.trace = r :: s.trace ∧ t.pending = s.pending ∧
      Effect i s.eng r t.eng := by
  rcases writeCmd_cases d s with ⟨-, -, -, h⟩ | ⟨hd, h⟩ | ⟨hd, h⟩ | ⟨he, hd, h⟩ | ⟨-, -, h⟩ |
    ⟨c, v, he, -, hf, h⟩ | ⟨-, hd, -, h⟩ | ⟨c, v, he, -, hf, h⟩ | ⟨-, hd, -, h⟩ | ⟨-, hd, h⟩ | ⟨-, hd, h⟩
  · exact ⟨_, _, h, rfl, rfl, .unchanged _⟩
  · exact ⟨_, _, h, rfl, rfl, .returned (issues_of_word hi hd)⟩
  · exact ⟨_, _, h, rfl, rfl, .reset _ (issues_of_word hi hd)⟩
  · exact ⟨_, _, h, rfl, rfl, .faulted _ _ he (coherent_faulted_illegalCmd _ hd)⟩
  · exact ⟨_, _, h, rfl, rfl, .unchanged _⟩
  · exact ⟨_, _, h, rfl, rfl, .faulted _ _ he (coherent_faulted_of_forwardFault hf)⟩
  · exact ⟨_, _, h, rfl, rfl, .forward (issues_of_word hi hd)⟩
  · exact ⟨_, _, h, rfl, rfl, .faulted _ _ he (coherent_faulted_of_backwardFault hf)⟩
  · exact ⟨_, _, h, rfl, rfl, .backward (issues_of_word hi hd)⟩
  · exact ⟨_, _, h, rfl, rfl, .clearOvf (issues_of_word hi hd)⟩
  · exact ⟨_, _, h, rfl, rfl, .flushed (issues_of_word hi hd)⟩

/-- Every operation answers, with one response more and one of the listed effects. -/
theorem exec_effect (i : Instr) (s : State) :
    ∃ t r, exec i s = .next t ∧ t.trace = r :: s.trace ∧ t.pending = s.pending ∧ Effect i s.eng r t.eng := by
  rcases exec_cases i s with ⟨a, -, h⟩ | ⟨a, d, e, rfl, -, hs, h⟩ | ⟨a, d, -, -, -, h⟩ | ⟨d, hi, h⟩
  · exact ⟨_, _, h, rfl, rfl, .unchanged _⟩
  · exact ⟨_, _, h, rfl, rfl, effect_of_storeWord hs⟩
  · exact ⟨_, _, h, rfl, rfl, .unchanged _⟩
  · rw [h]
    exact writeCmd_effect s hi

theorem effect_of_exec {i : Instr} {s t : State} (h : exec i s = .next t) :
    ∃ r, t.trace = r :: s.trace ∧ Effect i s.eng r t.eng := by
  obtain ⟨u, r, hu, htr, -, hE⟩ := exec_effect i s
  cases h.symm.trans hu
  exact ⟨r, htr, hE⟩

/-- A step that goes on leaves everything as it was, or resets the engine, or has the effect of the next operation. -/
theorem effect_of_step {s t : State} (h : step s = .next t) :
    t = s ∨ (NextResets s ∧ t.trace = s.trace ∧ t.eng = Engine.afterReset s.freeIx) ∨
    ∃ i r, (∀ c, Issues i c → NextIssues s c) ∧ t.trace = r :: s.trace ∧ Effect i s.eng r t.eng := by
  rcases step_next_cases h with ⟨-, rfl⟩ | ⟨rest, hp, rfl⟩ | ⟨q, rest, i, hp, hd, hx⟩
  · exact .inl rfl
  · exact .inr (.inl ⟨⟨rest, hp⟩, rfl, rfl⟩)
  · obtain ⟨r, htr, hE⟩ := effect_of_exec hx
    exact .inr (.inr ⟨i, r, fun c hc => ⟨q, rest, i, hp, hd, hc⟩, htr, hE⟩)

section Effects
variable {i : Instr} {e e' : Engine} {r : Response} (h : Effect i e r e')
include h

/-! ### The fault record -/

/-- What an operation can do to the fault record: keep it, enter a fault from outside the fault state, or
clear it by CLRERR or SRST (R33, R265, R266). -/
theorem Effect.record_cases :
    (e'.err = e.err ∧ e'.cause = e.cause ∧ e'.info = e.info) ∨
    (e.err = false ∧ e'.coherent = true) ∨
    ((Issues i .clrerr ∨ Issues i .srst) ∧ e'.err = false ∧ e'.cause = .none ∧ e'.info = 0#32) := by
  cases h with
  | faulted c v he hc => exact .inr (.inl ⟨he, hc⟩)
  | returned hi => exact .inr (.inr ⟨.inl hi, rfl, rfl, rfl⟩)
  | reset n hi => exact .inr (.inr ⟨.inr hi, rfl, rfl, rfl⟩)
  | _ => exact .inl ⟨rfl, rfl, rfl⟩

/-- In the fault state the record is kept, or cleared by CLRERR or SRST. -/
theorem Effect.record_of_err (he : e.err = true) :
    (e'.err = true ∧ e'.cause = e.cause ∧ e'.info = e.info) ∨
    ((Issues i .clrerr ∨ Issues i .srst) ∧ e'.err = false ∧ e'.cause = .none ∧ e'.info = 0#32) := by
  rcases h.record_cases with ⟨herr, hrec⟩ | ⟨hf, -⟩ | hclr
  · exact .inl ⟨herr.trans he, hrec⟩
  · exact absurd (he.symm.trans hf) (by decide)
  · exact .inr hclr

/-! ### The overflow flag -/

/-- Only a successful FWD sets `OVF` (R31). -/
theorem Effect.ovf_set (h0 : e.ovf = false) (h1 : e'.ovf = true) : Issues i .fwd ∧ r = .write .okay := by
  cases h with
  | forward hi => exact ⟨hi, rfl⟩
  | reset | clearOvf => cases h1
  | _ => exact absurd (h0.symm.trans h1) (by decide)

/-- Only CLROVF and SRST clear `OVF` (R31). -/
theorem Effect.ovf_cleared (h1 : e.ovf = true) (h0 : e'.ovf = false) :
    (Issues i .clrovf ∨ Issues i .srst) ∧ r = .write .okay := by
  cases h with
  | clearOvf hi => exact ⟨.inl hi, rfl⟩
  | reset n hi => exact ⟨.inr hi, rfl⟩
  | forward => simp [h1] at h0
  | _ => exact absurd (h1.symm.trans h0) (by decide)

/-! ### The valid masks -/

/-- The events that change `SBM` (R29). -/
theorem Effect.sbm_cases :
    e'.sbm = e.sbm ∨ r = .write .okay ∧
      ((∃ w, WritesSb i w ∧ BitSet e.sbm e'.sbm w) ∨
        (Issues i .fwd ∨ Issues i .flush ∨ Issues i .srst) ∧ e'.sbm = 0#16) := by
  cases h with
  | storeSb w d hi => exact .inr ⟨rfl, .inl ⟨w, ⟨d, hi⟩, getLsbD_setMask e.sbm w⟩⟩
  | forward hi => exact .inr ⟨rfl, .inr ⟨.inl hi, rfl⟩⟩
  | flushed hi => exact .inr ⟨rfl, .inr ⟨.inr (.inl hi), rfl⟩⟩
  | reset n hi => exact .inr ⟨rfl, .inr ⟨.inr (.inr hi), rfl⟩⟩
  | _ => exact .inl rfl

/-- The events that change `CBM` (R29). -/
theorem Effect.cbm_cases :
    e'.cbm = e.cbm ∨ r = .write .okay ∧
      ((∃ w, WritesCb i w ∧ BitSet e.cbm e'.cbm w) ∨
        Issues i .fwd ∧ e'.cbm = 0xFFFF#16 ∨
        (Issues i .bwd ∨ Issues i .flush ∨ Issues i .srst) ∧ e'.cbm = 0#16) := by
  cases h with
  | storeCb w d hi => exact .inr ⟨rfl, .inl ⟨w, ⟨d, hi⟩, getLsbD_setMask e.cbm w⟩⟩
  | forward hi => exact .inr ⟨rfl, .inr (.inl ⟨hi, rfl⟩)⟩
  | backward hi => exact .inr ⟨rfl, .inr (.inr ⟨.inl hi, rfl⟩)⟩
  | flushed hi => exact .inr ⟨rfl, .inr (.inr ⟨.inr (.inl hi), rfl⟩)⟩
  | reset n hi => exact .inr ⟨rfl, .inr (.inr ⟨.inr (.inr hi), rfl⟩)⟩
  | _ => exact .inl rfl

/-- The events that change `PBV` (R29). -/
theorem Effect.pbv_cases :
    e'.pbv = e.pbv ∨ r = .write .okay ∧
      (Issues i .bwd ∧ e'.pbv = true ∨ (Issues i .flush ∨ Issues i .srst) ∧ e'.pbv = false) := by
  cases h with
  | backward hi => exact .inr ⟨rfl, .inl ⟨hi, rfl⟩⟩
  | flushed hi => exact .inr ⟨rfl, .inr ⟨.inl hi, rfl⟩⟩
  | reset n hi => exact .inr ⟨rfl, .inr ⟨.inr hi, rfl⟩⟩
  | _ => exact .inl rfl

/-- The events that change `QMM` (R29). -/
theorem Effect.qmm_cases :
    e'.qmm = e.qmm ∨ r = .write .okay ∧
      ((∃ j, WritesQm i j ∧ BitSet e.qmm e'.qmm j) ∨ Issues i .srst ∧ e'.qmm = 0#64) := by
  cases h with
  | storeQm j d hd hi => exact .inr ⟨rfl, .inl ⟨j, ⟨d, hd, hi⟩, getLsbD_setMask e.qmm j⟩⟩
  | reset n hi => exact .inr ⟨rfl, .inr ⟨hi, rfl⟩⟩
  | _ => exact .inl rfl

end Effects

/-! ### The buffers -/

/-- A store to word `w` changes entries of word `w` alone (R68, R69). -/
theorem word_of_unpackWord_ne {v : Block} {w : Fin 16} {d : Word} {k : Fin 64}
    (h : (unpackWord v w d)[k] ≠ v[k]) : w = ⟨k.val / 4, by omega⟩ := by
  by_contra hw
  have hk : k.val / 4 ≠ w.val := fun he => hw (Fin.ext he.symm)
  exact h ((getElem_unpackWord v w d k.val k.isLt).trans (if_neg hk))

section Buffers
variable {i : Instr} {e e' : Engine} {r : Response} {k : Fin 64} (h : Effect i e r e') (hs : ¬ Issues i .srst)
include h hs

/-- Only a host write to `QM[k]` changes it (R26). -/
theorem Effect.writesQm (hk : e'.qm[k] ≠ e.qm[k]) : WritesQm i k := by
  cases h with
  | storeQm j d hd hi =>
    have hj : j = k := by
      by_contra hj
      exact hk (Vector.getElem_set_ne j.isLt k.isLt (Fin.val_ne_of_ne hj))
    exact hj ▸ ⟨d, hd, hi⟩
  | reset n hi => exact absurd hi hs
  | _ => exact absurd rfl hk

/-- Only a host write to its word changes an entry of `SB` (R23). -/
theorem Effect.writesSb (hk : e'.sb[k] ≠ e.sb[k]) : WritesSb i ⟨k.val / 4, by omega⟩ := by
  cases h with
  | storeSb w d hi => exact word_of_unpackWord_ne hk ▸ ⟨d, hi⟩
  | reset n hi => exact absurd hi hs
  | _ => exact absurd rfl hk

/-- Only a host write to its word and FWD change an entry of `CB` (R24). -/
theorem Effect.writesCb_or_fwd (hk : e'.cb[k] ≠ e.cb[k]) :
    WritesCb i ⟨k.val / 4, by omega⟩ ∨ Issues i .fwd := by
  cases h with
  | storeCb w d hi => exact .inl (word_of_unpackWord_ne hk ▸ ⟨d, hi⟩)
  | forward hi => exact .inr hi
  | reset n hi => exact absurd hi hs
  | _ => exact absurd rfl hk

/-- Only BWD changes an entry of `PB` (R25). -/
theorem Effect.issuesBwd (hk : e'.pb[k] ≠ e.pb[k]) : Issues i .bwd := by
  cases h with
  | backward hi => exact hi
  | reset n hi => exact absurd hi hs
  | _ => exact absurd rfl hk

end Buffers

/-! ### Coherence of the fault record -/

/-- Coherence speaks of the fault record alone. -/
theorem coherent_of_same_record {e e' : Engine} (herr : e'.err = e.err) (hcause : e'.cause = e.cause)
    (hinfo : e'.info = e.info) (hc : e.coherent = true) : e'.coherent = true := by
  unfold Engine.coherent
  rw [herr, hcause, hinfo]
  exact hc

/-- The cleared record is coherent (R33). -/
theorem coherent_of_cleared {e : Engine} (herr : e.err = false) (hcause : e.cause = .none)
    (hinfo : e.info = 0#32) : e.coherent = true := by
  simp [Engine.coherent, herr, hcause, hinfo]

theorem Effect.coherent {i : Instr} {e e' : Engine} {r : Response} (h : Effect i e r e')
    (hc : e.coherent = true) : e'.coherent = true := by
  rcases h.record_cases with ⟨herr, hcause, hinfo⟩ | ⟨-, hc'⟩ | ⟨-, herr, hcause, hinfo⟩
  · exact coherent_of_same_record herr hcause hinfo hc
  · exact hc'
  · exact coherent_of_cleared herr hcause hinfo

/-! ### The statements -/

/-- Settles O40: a reset leaves the cleared record, and every effect of an operation keeps coherence. -/
theorem stepKeepsFaultRecordCoherent : Obligations.StepKeepsFaultRecordCoherent := by
  intro s t hInv hx
  rcases effect_of_step hx with rfl | ⟨-, -, he⟩ | ⟨i, r, -, -, hE⟩
  · exact hInv
  · rw [State.Inv, he]
    exact coherent_of_cleared rfl rfl rfl
  · exact hE.coherent hInv

/-- Settles O41: the record of the reset state is the cleared one. -/
theorem resetFaultRecordCoherent : Obligations.ResetFaultRecordCoherent :=
  coherent_of_cleared rfl rfl rfl

/-- Settles O36: faults are entered from `ERR = 0` only, so in the fault state the record is kept or cleared. -/
theorem firstFaultWins : Obligations.FirstFaultWins := by
  constructor
  · intro i s t hx herr
    obtain ⟨r, -, hE⟩ := effect_of_exec hx
    exact hE.record_of_err herr
  · intro s t hx herr
    rcases effect_of_step hx with rfl | ⟨hreset, -, he⟩ | ⟨i, r, hnext, -, hE⟩
    · exact .inl ⟨herr, rfl, rfl⟩
    · exact .inr ⟨.inr (.inr hreset), by simp [he]⟩
    · exact (hE.record_of_err herr).imp_right fun ⟨hi, hclr⟩ =>
        ⟨hi.imp (hnext _) fun h => .inl (hnext _ h), hclr⟩

/-- Settles O37, from the two effects on `OVF`; the idle step keeps the flag and the reset input clears it. -/
theorem overflowFlagIsSticky : Obligations.OverflowFlagIsSticky := by
  constructor
  · intro i s t hx
    obtain ⟨r, htr, hE⟩ := effect_of_exec hx
    rw [htr, List.cons.injEq, eq_self, and_true]
    exact ⟨hE.ovf_set, hE.ovf_cleared⟩
  · intro s t hx
    rcases effect_of_step hx with rfl | ⟨hreset, htr, he⟩ | ⟨i, r, hnext, htr, hE⟩
    · simp +contextual
    · exact ⟨fun _ h => by simp [he] at h, fun _ _ => .inr ⟨hreset, htr⟩⟩
    · constructor
      · intro h0 h1
        obtain ⟨hi, rfl⟩ := hE.ovf_set h0 h1
        exact ⟨hnext _ hi, htr⟩
      · intro h1 h0
        obtain ⟨hi, rfl⟩ := hE.ovf_cleared h1 h0
        exact .inl ⟨hi.imp (hnext _) (hnext _), htr⟩

/-- Settles O38, mask by mask. -/
theorem masksChangeOnlyAsListed : Obligations.MasksChangeOnlyAsListed := by
  intro i s t hx
  obtain ⟨r, htr, hE⟩ := effect_of_exec hx
  simp only [htr, List.cons.injEq, and_true]
  exact ⟨hE.sbm_cases, hE.cbm_cases, hE.pbv_cases, hE.qmm_cases⟩

/-- Settles O39, buffer by buffer. -/
theorem buffersWrittenOnlyAsListed : Obligations.BuffersWrittenOnlyAsListed := by
  intro i s t k hx hs
  obtain ⟨r, -, hE⟩ := effect_of_exec hx
  exact ⟨hE.writesQm hs, hE.writesSb hs, hE.writesCb_or_fwd hs, hE.issuesBwd hs⟩

end Sys2Proof.Machine
end

section
/-! PROOFS. The bus: where the control registers stand, what a store leaves in a buffer, and what a read
answers; from them the statements about reads and writes, O5 to O16 and O18, and about steps, O45 and O49. -/

namespace Sys2Proof.Machine
open Sys2Proof.Spec

/-! ### The control registers -/

/-- The byte address of a read-only control register (R35). -/
def CtlReg.offset : CtlReg → Nat
  | .status => 0x004
  | .cause => 0x008
  | .info => 0x00C
  | .id => 0x010
  | .sbmask => 0x014
  | .cbmask => 0x018
  | .qmmaskLo => 0x01C
  | .qmmaskHi => 0x020

@[simp] theorem region_offset (r : CtlReg) : region r.offset = .ctl r := by cases r <;> rfl

/-- The aligned addresses from 0x004 to 0x020 are those of the control registers (R35). -/
theorem control_address {a : Nat} (h4 : a % 4 = 0) (h1 : 0x004 ≤ a) (h2 : a ≤ 0x020) :
    ∃ r : CtlReg, a = r.offset := by
  obtain ⟨k, rfl⟩ : ∃ k, a = 4 * k := ⟨a / 4, by omega⟩
  have hk1 : 1 ≤ k := by omega
  have hk8 : k ≤ 8 := by omega
  interval_cases k
  exacts [⟨.status, rfl⟩, ⟨.cause, rfl⟩, ⟨.info, rfl⟩, ⟨.id, rfl⟩, ⟨.sbmask, rfl⟩, ⟨.cbmask, rfl⟩,
    ⟨.qmmaskLo, rfl⟩, ⟨.qmmaskHi, rfl⟩]

theorem aligned_of_region_ctl {a : Nat} {r : CtlReg} (h : region a = .ctl r) : a % 4 = 0 := by
  by_contra h4
  cases (region_misaligned h4).symm.trans h

/-- Which byte address leads to a control register. -/
theorem region_eq_ctl {a : Nat} {r : CtlReg} (h : region a = .ctl r) : a = r.offset := by
  have h4 := aligned_of_region_ctl h
  rcases address_cases a with hr | hr | rfl | ⟨h1, h2, -⟩ | ⟨i, rfl⟩ | ⟨w, rfl⟩ | ⟨w, rfl⟩ | ⟨w, rfl⟩
  · cases hr.symm.trans h
  · cases hr.symm.trans h
  · cases region_cmd.symm.trans h
  · obtain ⟨r', rfl⟩ := control_address h4 h1 h2
    exact congrArg CtlReg.offset (Region.ctl.inj ((region_offset r').symm.trans h))
  · cases (region_qm i).symm.trans h
  · cases (region_sb w).symm.trans h
  · cases (region_cb w).symm.trans h
  · cases (region_pb w).symm.trans h

@[simp] theorem readWord_offset (e : Engine) (r : CtlReg) : readWord e r.offset = some (ctlRead e r) := by
  rw [readWord, region_offset]

theorem toNat_fullMask {w : Nat} (m : BitVec w) :
    (fullMask m).toNat = if m = BitVec.allOnes w then 1 else 0 := by
  by_cases h : m = BitVec.allOnes w <;> simp [fullMask, h]

/-- STATUS is the sum of its bits: no carry is lost (R37). -/
theorem toNat_status (e : Engine) :
    e.status.toNat = e.err.toNat + 2 * e.ovf.toNat + 4 * e.qmv.toNat + 8 * e.sbv.toNat + 16 * e.cbv.toNat
      + 32 * e.pbv.toNat := by
  have := e.err.toNat_le; have := e.ovf.toNat_le; have := e.qmv.toNat_le
  have := e.sbv.toNat_le; have := e.cbv.toNat_le; have := e.pbv.toNat_le
  rw [Engine.status, BitVec.toNat_ofNat, Nat.mod_eq_of_lt (by omega)]

theorem toNat_causeCode (c : Cause) : ((causeCode c).setWidth 32).toNat = causeNumber c := by
  cases c <;> rfl

/-- What a control register reads is the value R37 to R41 give for its address. -/
theorem controlValue_ctlRead (e : Engine) (r : CtlReg) : controlValue e r.offset (ctlRead e r) := by
  cases r with
  | status =>
    refine .inr (.inl ⟨rfl, ?_⟩)
    rw [ctlRead, toNat_status, Engine.qmv, Engine.sbv, Engine.cbv, toNat_fullMask, toNat_fullMask, toNat_fullMask]
    rfl
  | cause => simpa [controlValue, CtlReg.offset, ctlRead] using toNat_causeCode e.cause
  | info => simp [controlValue, CtlReg.offset, ctlRead]
  | id => simp [controlValue, CtlReg.offset, ctlRead, Config.ID_VALUE]
  | sbmask =>
    have h : (e.sbm.setWidth 32).toNat = e.sbm.toNat := BitVec.toNat_setWidth_of_le (by decide)
    simpa [controlValue, CtlReg.offset, ctlRead] using h
  | cbmask =>
    have h : (e.cbm.setWidth 32).toNat = e.cbm.toNat := BitVec.toNat_setWidth_of_le (by decide)
    simpa [controlValue, CtlReg.offset, ctlRead] using h
  | qmmaskLo => simp [controlValue, CtlReg.offset, ctlRead]
  | qmmaskHi =>
    have h : (e.qmm.extractLsb' 32 32).toNat = e.qmm.toNat / 2 ^ 32 := by
      rw [BitVec.extractLsb'_toNat, Nat.shiftRight_eq_div_pow]
      omega
    simpa [controlValue, CtlReg.offset, ctlRead] using h

/-! ### Stores -/

/-- A word fits 16 bits when its upper half is 0. -/
theorem highHalf_eq_zero_iff (d : Word) : d.extractLsb' 16 16 = 0#16 ↔ d.toNat < 65536 := by
  rw [← BitVec.toNat_inj, BitVec.extractLsb'_toNat, Nat.shiftRight_eq_div_pow]
  have := d.isLt
  simp only [BitVec.toNat_ofNat]
  omega

/-- The bytes of the word written are the entries of the buffer word (R68, R69). -/
theorem unpackWord_same (v : Block) (w : Fin 16) (d : Word) (j : Fin 4) :
    (unpackWord v w d)[4 * w.val + j.val] = wordByte d j := by
  rw [getElem_unpackWord, if_pos (by omega)]
  congr 1
  omega

/-- Entries of other buffer words stay. -/
theorem unpackWord_of_ne (v : Block) (w : Fin 16) (d : Word) {i : Fin 64} (h : i.val / 4 ≠ w.val) :
    (unpackWord v w d)[i] = v[i] :=
  (getElem_unpackWord v w d i.val i.isLt).trans (if_neg h)

/-- An accepted store touches the three writable buffers and their masks alone. -/
theorem storeWord_frame {e e' : Engine} {a : Nat} {d : Word} (h : storeWord e a d = some e') :
    ∃ sb cb qm sbm cbm qmm,
      e' = { e with sb := sb, cb := cb, qm := qm, sbm := sbm, cbm := cbm, qmm := qmm } := by
  rcases storeWord_cases h with ⟨i, -, -, rfl⟩ | ⟨w, -, rfl⟩ | ⟨w, -, rfl⟩ <;> exact ⟨_, _, _, _, _, _, rfl⟩

/-- Entry `4w+j` of a byte buffer in natural order stands at row `w div 2`, column `4*(w mod 2) + j` (R64). -/
theorem natural_of_word (w : Fin 16) (j : Fin 4) :
    4 * w.val + j.val = (natural ⟨w.val / 2, by omega⟩ ⟨4 * (w.val % 2) + j.val, by omega⟩).val := by
  simp only [natural]
  omega

theorem setMask_setMask {w : Nat} (m : BitVec w) (i : Fin w) : setMask (setMask m i) i = setMask m i := by
  rw [setMask, setMask, BitVec.or_assoc, BitVec.or_self]

theorem unpackWord_unpackWord (v : Block) (w : Fin 16) (d : Word) :
    unpackWord (unpackWord v w d) w d = unpackWord v w d := by
  ext1 i hi
  simp only [getElem_unpackWord]
  split <;> rfl

/-- A store that was accepted is accepted again and changes nothing more (R63). -/
theorem storeWord_idem {e e' : Engine} {a : Nat} {d : Word} (h : storeWord e a d = some e') :
    storeWord e' a d = some e' := by
  rcases storeWord_cases h with ⟨i, rfl, hd, rfl⟩ | ⟨w, rfl, rfl⟩ | ⟨w, rfl, rfl⟩
  · rw [storeWord_qm, if_pos hd]
    simp [Engine.storeQm, setMask_setMask]
  · rw [storeWord_sb]
    simp [Engine.storeSb, setMask_setMask, unpackWord_unpackWord]
  · rw [storeWord_cb]
    simp [Engine.storeCb, setMask_setMask, unpackWord_unpackWord]

/-- Leaving the fault state and storing a word commute (R77). -/
theorem storeWord_returned (e : Engine) (a : Nat) (d : Word) :
    storeWord e.returned a d = (storeWord e a d).map Engine.returned := by
  unfold storeWord
  cases region a with
  | qm i =>
    by_cases hd : d.toNat < 2 ^ Config.QW
    · simp only [if_pos hd]; rfl
    · simp only [if_neg hd]; rfl
  | _ => rfl

/-- Only STATUS, CAUSE and INFO show the fault record (R77). -/
theorem readWord_returned (e : Engine) {a : Nat} (h1 : a ≠ 0x004) (h2 : a ≠ 0x008) (h3 : a ≠ 0x00C) :
    readWord e.returned a = readWord e a := by
  unfold readWord
  cases hr : region a with
  | ctl r =>
    have ha := region_eq_ctl hr
    cases r with
    | status => exact absurd ha h1
    | cause => exact absurd ha h2
    | info => exact absurd ha h3
    | _ => rfl
  | _ => rfl

/-! ### Reads -/

theorem readWord_qm (e : Engine) (i : Fin 64) :
    readWord e (0x100 + 4 * i.val) = if e.qmm.getLsbD i then some ((e.qm[i]).setWidth 32) else none := by
  rw [readWord, region_qm]

theorem readWord_sb (e : Engine) (w : Fin 16) :
    readWord e (0x200 + 4 * w.val) = if e.sbm.getLsbD w then some (packWord e.sb w) else none := by
  rw [readWord, region_sb]

theorem readWord_cb (e : Engine) (w : Fin 16) :
    readWord e (0x240 + 4 * w.val) = if e.cbm.getLsbD w then some (packWord e.cb w) else none := by
  rw [readWord, region_cb]

theorem readWord_pb (e : Engine) (w : Fin 16) :
    readWord e (0x280 + 4 * w.val) = if e.pbv then some (packWord e.pb w) else none := by
  rw [readWord, region_pb]

/-- A control register is read in every state (R72). -/
theorem exec_rd_offset (r : CtlReg) (s : State) :
    exec (.rd r.offset) s = .next (after s (.read (ctlRead s.eng r) .okay) s.eng) :=
  exec_rd_some (readWord_offset s.eng r)

/-- The answer of a read is a function of what `readWord` gives, with data 0 in a refusal (R60, R63). -/
theorem exec_rd_answer (e : Engine) (a : Nat) : ∃ (d : Word) (r : Resp), (r = .error → d = 0#32) ∧
    ∀ s : State, readWord s.eng a = readWord e a → exec (.rd a) s = .next (after s (.read d r) s.eng) := by
  cases h : readWord e a with
  | some d => exact ⟨d, .okay, nofun, fun s hs => exec_rd_some hs⟩
  | none => exact ⟨0#32, .error, fun _ => rfl, fun s hs => exec_rd_none hs⟩

/-- A machine that answered one response did not answer another. -/
theorem response_of_after_eq {s : State} {r r' : Response} {e e' : Engine}
    (h : (.next (after s r e) : Result) = .next (after s r' e')) : r = r' ∧ e = e' := by
  have hs : after s r e = after s r' e' := Host.Outcome.next.inj h
  exact ⟨(List.cons.inj (congrArg State.trace hs)).1, congrArg State.eng hs⟩

/-- A write that is answered OKAY, other than to CMD, is an accepted store. -/
theorem storeWord_of_exec_wr {a : Nat} {d : Word} {s : State} {e : Engine} (h0 : a ≠ 0)
    (h : exec (.wr a d) s = .next (after s (.write .okay) e)) : storeWord s.eng a d = some e := by
  cases hs : storeWord s.eng a d with
  | some e' => exact congrArg some (response_of_after_eq ((exec_wr_some hs).symm.trans h)).2
  | none => cases (response_of_after_eq ((exec_wr_none h0 hs).symm.trans h)).1

/-! ### Refusals -/

/-- Where nothing stands, a read and a write are refused (R65, R75). -/
theorem transactions_refused {a : Nat} (h : region a = .misaligned ∨ region a = .unmapped) (d : Word)
    (s : State) :
    exec (.rd a) s = .next (after s (.read 0#32 .error) s.eng) ∧
    exec (.wr a d) s = .next (after s (.write .error) s.eng) := by
  have h0 : a ≠ 0 := by
    rintro rfl
    simp at h
  have hr : readWord s.eng a = none := by rcases h with h | h <;> rw [readWord, h]
  have hw : storeWord s.eng a d = none := by rcases h with h | h <;> rw [storeWord, h]
  exact ⟨exec_rd_none hr, exec_wr_none h0 hw⟩

/-- Settles O5: alignment is checked before anything else. -/
theorem misalignedTransactionsRefused : Obligations.MisalignedTransactionsRefused :=
  fun _ d s h => transactions_refused (.inl (region_misaligned h)) d s

/-- Settles O6: alignment is checked first, with the same outcome. -/
theorem unmappedTransactionsRefused : Obligations.UnmappedTransactionsRefused := by
  intro a d s h
  by_cases h4 : a % 4 = 0
  · exact transactions_refused (.inr (region_unmapped h4 h)) d s
  · exact transactions_refused (.inl (region_misaligned h4)) d s

/-- Settles O7: the aligned addresses of the two ranges are control registers and words of `PB`. -/
theorem readOnlyWritesRefused : Obligations.ReadOnlyWritesRefused := by
  intro a d s h
  have h0 : a ≠ 0 := by omega
  by_cases h4 : a % 4 = 0
  swap
  · exact (transactions_refused (.inl (region_misaligned h4)) d s).2
  rcases h with ⟨h1, h2⟩ | ⟨h1, h2⟩
  · obtain ⟨r, hr⟩ := region_ctl h4 h1 h2
    exact exec_wr_none h0 (by rw [storeWord, hr])
  · obtain ⟨w, rfl⟩ : ∃ w : Fin 16, a = 0x280 + 4 * w.val :=
      ⟨⟨(a - 0x280) / 4, by omega⟩, by dsimp only; omega⟩
    exact exec_wr_none h0 (by rw [storeWord, region_pb])

/-! ### Buffer words -/

/-- Settles O8: the upper half of the word is 0 exactly when the store accepts it. -/
theorem qmWriteStoresOrRefuses : Obligations.QmWriteStoresOrRefuses := by
  intro i d s
  rw [ne_eq, highHalf_eq_zero_iff]
  constructor
  · intro hd
    exact exec_wr_none (by omega) ((storeWord_qm s.eng i d).trans (if_neg hd))
  · intro hd
    refine ⟨s.eng.qm.set i (d.extractLsb' 0 16), setMask s.eng.qmm i,
      exec_wr_some ((storeWord_qm s.eng i d).trans (if_pos hd)), ?_, ?_, getLsbD_setMask s.eng.qmm i⟩
    · exact Vector.getElem_set_self i.isLt
    · exact fun j hj => Vector.getElem_set_ne i.isLt j.isLt (Fin.val_ne_of_ne hj.symm)

/-- Settles O9: the zero extension of an entry has the value of the entry. -/
theorem qmReadReturnsValidEntry : Obligations.QmReadReturnsValidEntry := by
  intro i s
  constructor <;> intro hv
  · refine ⟨_, ?_, exec_rd_some ((readWord_qm s.eng i).trans (if_pos hv))⟩
    exact BitVec.toNat_setWidth_of_le (by decide)
  · exact exec_rd_none ((readWord_qm s.eng i).trans (if_neg (Bool.eq_false_iff.1 hv)))

/-- Settles O10: the store is accepted, and its entries are the bytes of the word. -/
theorem sbWriteStoresFourSamples : Obligations.SbWriteStoresFourSamples := by
  intro w d s
  refine ⟨unpackWord s.eng.sb w d, setMask s.eng.sbm w, exec_wr_some (storeWord_sb s.eng w d),
    fun j => ⟨?_, natural_of_word w j⟩, ?_, getLsbD_setMask s.eng.sbm w⟩
  · exact congrArg BitVec.toInt (unpackWord_same s.eng.sb w d j)
  · exact fun i => unpackWord_of_ne s.eng.sb w d

/-- Settles O11: as in `SB`, with the entries in zigzag order. -/
theorem cbWriteStoresFourCoefficients : Obligations.CbWriteStoresFourCoefficients := by
  intro w d s
  refine ⟨unpackWord s.eng.cb w d, setMask s.eng.cbm w, exec_wr_some (storeWord_cb s.eng w d),
    fun j => ?_, ?_, getLsbD_setMask s.eng.cbm w⟩
  · exact congrArg BitVec.toInt (unpackWord_same s.eng.cb w d j)
  · exact fun i => unpackWord_of_ne s.eng.cb w d

/-- Settles O12: the bytes of a packed word are the entries of the buffer. -/
theorem sbCbReadReturnsPackedWord : Obligations.SbCbReadReturnsPackedWord := by
  intro w s
  refine ⟨fun hv => ?_, fun hv => ?_, fun hv => ?_, fun hv => ?_⟩
  · exact ⟨_, wordByte_packWord s.eng.sb w, exec_rd_some ((readWord_sb s.eng w).trans (if_pos hv))⟩
  · exact exec_rd_none ((readWord_sb s.eng w).trans (if_neg (Bool.eq_false_iff.1 hv)))
  · exact ⟨_, wordByte_packWord s.eng.cb w, exec_rd_some ((readWord_cb s.eng w).trans (if_pos hv))⟩
  · exact exec_rd_none ((readWord_cb s.eng w).trans (if_neg (Bool.eq_false_iff.1 hv)))

/-- Settles O13: as in `SB`, with one valid bit for all words. -/
theorem pbReadReturnsPackedWord : Obligations.PbReadReturnsPackedWord := by
  intro w s
  constructor <;> intro hv
  · exact ⟨_, fun j => ⟨wordByte_packWord s.eng.pb w j, natural_of_word w j⟩,
      exec_rd_some ((readWord_pb s.eng w).trans (if_pos hv))⟩
  · exact exec_rd_none ((readWord_pb s.eng w).trans (if_neg (Bool.eq_false_iff.1 hv)))

/-! ### Control registers -/

/-- Settles O14: CMD reads 0, and every other aligned address up to 0x020 is a control register. -/
theorem controlRegisterReads : Obligations.ControlRegisterReads := by
  intro a s h4 h
  rcases Nat.eq_zero_or_pos a with rfl | h0
  · exact ⟨0#32, .inl ⟨rfl, rfl⟩, exec_rd_some rfl⟩
  · obtain ⟨r, rfl⟩ := control_address h4 (by omega) h
    exact ⟨_, controlValue_ctlRead s.eng r, exec_rd_offset r s⟩

/-! ### Repeated transactions, and transactions in the fault state -/

/-- Settles O15: a read leaves what it is a function of, and a store made twice is made once. -/
theorem transactionsIdempotentButCmd : Obligations.TransactionsIdempotentButCmd := by
  intro a s
  constructor
  · obtain ⟨d, r, hr, hx⟩ := exec_rd_answer s.eng a
    exact ⟨d, r, hx s rfl, hr, hx _ rfl⟩
  · intro d h0
    cases hs : storeWord s.eng a d with
    | some e => exact ⟨e, .okay, exec_wr_some hs, exec_wr_some (storeWord_idem hs)⟩
    | none => exact ⟨s.eng, .error, exec_wr_none h0 hs, exec_wr_none h0 hs⟩

/-- Settles O16: an OKAY answer means an accepted store, and `readWord` after a store is known. -/
theorem bufferReadAfterWrite : Obligations.BufferReadAfterWrite := by
  intro a b d x r s e h0 hw
  have hs := storeWord_of_exec_wr h0 hw
  refine ⟨⟨_, exec_rd_some (readWord_storeWord_same hs), rfl⟩, fun h1 h2 hb hrd => ?_⟩
  obtain ⟨x', r', -, hx⟩ := exec_rd_answer s.eng b
  cases (response_of_after_eq ((hx s rfl).symm.trans hrd)).1
  exact hx _ (readWord_storeWord_ne hs hb h1 h2)

/-- STATUS differs in bit 0 alone outside the fault state (R37, R77). -/
theorem toNat_status_returned (e : Engine) :
    e.returned.status.toNat % 2 = 0 ∧ e.status.toNat = e.returned.status.toNat + e.err.toNat := by
  have h : e.returned.status.toNat = 0 + 2 * e.ovf.toNat + 4 * e.qmv.toNat + 8 * e.sbv.toNat
      + 16 * e.cbv.toNat + 32 * e.pbv.toNat := toNat_status e.returned
  rw [h, toNat_status]
  omega

/-- Settles O18: leaving the fault state commutes with stores and is seen by three registers alone. -/
theorem busIgnoresFaultState : Obligations.BusIgnoresFaultState := by
  intro a d s u hu
  obtain rfl : u = { s with eng := s.eng.returned } := hu
  refine ⟨fun h0 => ?_, fun h1 h2 h3 => ?_, ?_, ?_, ?_, ?_, ?_⟩
  · have hsu := storeWord_returned s.eng a d
    cases hs : storeWord s.eng a d with
    | some e =>
      rw [hs] at hsu
      obtain ⟨sb, cb, qm, sbm, cbm, qmm, rfl⟩ := storeWord_frame hs
      exact ⟨.write .okay, sb, cb, qm, sbm, cbm, qmm, exec_wr_some hs, exec_wr_some hsu⟩
    | none =>
      rw [hs] at hsu
      exact ⟨.write .error, s.eng.sb, s.eng.cb, s.eng.qm, s.eng.sbm, s.eng.cbm, s.eng.qmm,
        exec_wr_none h0 hs, exec_wr_none h0 hsu⟩
  · obtain ⟨x, r, -, hx⟩ := exec_rd_answer s.eng a
    exact ⟨.read x r, hx s rfl, hx _ (readWord_returned s.eng h1 h2 h3)⟩
  · exact ⟨_, _, exec_rd_offset .status s, exec_rd_offset .status _, toNat_status_returned s.eng⟩
  · exact ⟨_, exec_rd_offset .cause s, toNat_causeCode s.eng.cause⟩
  · exact exec_rd_offset .cause _
  · exact exec_rd_offset .info s
  · exact exec_rd_offset .info _

/-! ### Steps of one machine and of a system -/

/-- Settles O45: a transaction at the head of the bus inputs is the one that the step decodes. -/
theorem stepRunsDecodedTransaction : Obligations.StepRunsDecodedTransaction := by
  intro s q rest i hp hd
  rw [step_transfer hp, hd]

/-- A system step that goes on is a step of the addressed component, and replaces that one alone. -/
theorem System.step_eq_next {neng : Nat} {k : Fin neng} {sys u : System neng} :
    System.step k sys = .next u ↔ ∃ s, Sys2Proof.Machine.step sys[k] = .next s ∧ u = sys.set k s := by
  unfold System.step
  cases Sys2Proof.Machine.step sys[k] <;> simp [eq_comm]

/-- Settles O49: the step depends on the addressed component alone and sets that component alone. -/
theorem instancesAreIndependent : Obligations.InstancesAreIndependent := by
  intro neng k sys sys' hk u hu
  obtain ⟨s, hs, rfl⟩ := System.step_eq_next.1 hu
  have hself (v : System neng) : (v.set k s)[k] = s := Vector.getElem_set_self k.isLt
  refine ⟨⟨s, hs, hself sys⟩, fun j hj => ?_, sys'.set k s, System.step_eq_next.2 ⟨s, hk ▸ hs, rfl⟩, ?_⟩
  · exact Vector.getElem_set_ne k.isLt j.isLt (Fin.val_ne_of_ne hj.symm)
  · rw [hself, hself]

end Sys2Proof.Machine
end

section
/-! PROOFS. Encodings and what runs them: the decoder and the encoder taken as inverse to each other (O1 to O4),
the dispatch of a word written to CMD (O19), and words and programs put on the bus (O46, O48). -/

namespace Sys2Proof

/-! ### Command words -/

/-- A word decodes to a command exactly when it is that command's word (R102). -/
theorem decodeCommand_eq_some {d : BitVec 32} {c : Command} :
    decodeCommand d = some c ↔ d = encodeCommand c := by
  constructor
  · intro h
    rcases decodeCommand_cases d with
      ⟨hd, hc⟩ | ⟨hd, hc⟩ | ⟨hd, hc⟩ | ⟨hd, hc⟩ | ⟨hd, hc⟩ | ⟨hd, hc⟩ | ⟨hd, hc⟩ | ⟨-, -, -, -, -, -, -, hc⟩ <;>
      cases hc.symm.trans h
    all_goals exact hd
  · rintro rfl
    exact decodeCommand_encodeCommand c

/-- A word is illegal exactly when it is the word of no command (R105). -/
theorem decodeCommand_eq_none {d : BitVec 32} :
    decodeCommand d = none ↔ ∀ c : Command, d ≠ encodeCommand c := by
  simp only [Option.eq_none_iff_forall_ne_some, ne_eq, decodeCommand_eq_some]

theorem decode_c0_of_some {d : BitVec 32} {c : Command} (h : decodeCommand d = some c) :
    decode (.c0 d) = .ok c.toInstr := by
  rw [decode, h]

theorem decode_c0_of_none {d : BitVec 32} (h : decodeCommand d = none) :
    decode (.c0 d) = .error (.illegalCommand d) := by
  rw [decode, h]

/-- What a command word decodes to (R102). -/
theorem decode_c0_eq_ok {d : BitVec 32} {i : Instr} :
    decode (.c0 d) = .ok i ↔ ∃ c : Command, d = encodeCommand c ∧ i = c.toInstr := by
  constructor
  · intro h
    cases hc : decodeCommand d with
    | none => cases (decode_c0_of_none hc).symm.trans h
    | some c => exact ⟨c, decodeCommand_eq_some.1 hc, Except.ok.inj (h.symm.trans (decode_c0_of_some hc))⟩
  · rintro ⟨c, rfl, rfl⟩
    exact decode_c0_of_some (decodeCommand_encodeCommand c)

@[simp] theorem encode_toInstr (c : Command) : encode c.toInstr = .c0 (encodeCommand c) := by
  cases c <;> rfl

@[simp] theorem wf_toInstr (c : Command) : c.toInstr.wf = true := by
  cases c <;> rfl

/-- Every command decodes from its encoding. -/
theorem decode_encode_toInstr (c : Command) : decode (encode c.toInstr) = .ok c.toInstr := by
  rw [encode_toInstr, decode_c0_of_some (decodeCommand_encodeCommand c)]

/-! ### Transaction records -/

/-- What a bus request decodes to (R108). -/
theorem decodeRequest_eq_ok {q : Request} {i : Instr} :
    decodeRequest q = .ok i ↔
      (q.write = true ∧ i = .wr q.addr q.data) ∨ (q.write = false ∧ q.data = 0#32 ∧ i = .rd q.addr) := by
  obtain ⟨w, a, d⟩ := q
  cases w
  · by_cases hd : d = 0#32 <;> simp [decodeRequest, hd, eq_comm (a := i)]
  · simp [decodeRequest, eq_comm (a := i)]

/-- Every transaction decodes (R108). -/
theorem decodeRequest_of_wf {q : Request} (h : q.wf = true) : ∃ i, decodeRequest q = .ok i := by
  simp only [Request.wf, Bool.or_eq_true, beq_iff_eq] at h
  by_cases hw : q.write = true
  · exact ⟨_, decodeRequest_eq_ok.2 (.inl ⟨hw, rfl⟩)⟩
  · exact ⟨_, decodeRequest_eq_ok.2 (.inr ⟨Bool.eq_false_iff.2 hw, h.resolve_left hw, rfl⟩)⟩

/-- A record with an address in the window decodes as the request of its fields (R108). -/
theorem decode_record {w : Bool} {a : Nat} (ha : a < 4096) (d : BitVec 32) :
    decode (.t0 (encodeRecord w a d)) = decodeRequest ⟨w, a, d⟩ := by
  rw [decode, ofRecord_encodeRecord w ha d]

/-- Settles O1: a command is found by its word, and a record has the fields it was made of. -/
theorem decodeOfEncode : Obligations.DecodeOfEncode := by
  intro i hi
  cases i with
  | rd a => exact decode_record ((Instr.wf_rd a).1 hi) 0#32
  | wr a d => exact decode_record ((Instr.wf_wr a d).1 hi) d
  | nop => exact decode_encode_toInstr .nop
  | fwd => exact decode_encode_toInstr .fwd
  | bwd => exact decode_encode_toInstr .bwd
  | clrerr => exact decode_encode_toInstr .clrerr
  | clrovf => exact decode_encode_toInstr .clrovf
  | flush => exact decode_encode_toInstr .flush
  | srst => exact decode_encode_toInstr .srst

/-- Settles O2: the word of a command is its encoding, and a record is the encoding of its fields. -/
theorem encodeOfDecode : Obligations.EncodeOfDecode := by
  intro c i h
  cases c with
  | c0 d =>
    obtain ⟨c, rfl, rfl⟩ := decode_c0_eq_ok.1 h
    exact ⟨wf_toInstr c, encode_toInstr c⟩
  | t0 t =>
    have ht := encodeRecord_ofRecord t
    rcases decodeRequest_eq_ok.1 h with ⟨hw, rfl⟩ | ⟨hw, hd, rfl⟩
    · rw [hw] at ht
      exact ⟨(Instr.wf_wr _ _).2 (ofRecord_addr_lt t), congrArg Code.t0 ht⟩
    · rw [hw, hd] at ht
      exact ⟨(Instr.wf_rd _).2 (ofRecord_addr_lt t), congrArg Code.t0 ht⟩

/-- Settles O3: seven of the words are encodings of what they stand for, and 0x101 is the word of no command. -/
theorem specWordsDecode : Obligations.SpecWordsDecode := by
  have illegal : ∀ c : Command, 0x101#32 ≠ encodeCommand c := by
    intro c
    cases c <;> decide
  exact ⟨decodeOfEncode .fwd rfl, decodeOfEncode .bwd rfl, decodeOfEncode .srst rfl,
    decode_c0_of_none (decodeCommand_eq_none.2 illegal), decodeOfEncode (.rd 0x010) rfl,
    decodeOfEncode (.rd 0x2BC) rfl, decodeOfEncode (.wr 0x1FC 0x63#32) rfl,
    decodeOfEncode (.wr 0x200 0xC2BDB7B4#32) rfl⟩

/-! ### The rows of the opcode map -/

/-- The opcode map has one row for each command: its word, under the mask of all bits (R102). -/
theorem mem_commandRows {r : CommandRow} :
    r ∈ commandRows ↔ ∃ c : Command, r = ⟨encodeCommand c, 0xFFFFFFFF#32, c⟩ := by
  constructor
  · have hrow : ∀ r ∈ commandRows, r = ⟨encodeCommand r.command, 0xFFFFFFFF#32, r.command⟩ := by decide
    exact fun h => ⟨r.command, hrow r h⟩
  · rintro ⟨c, rfl⟩
    cases c <;> decide

/-- The row of a command matches the words that decode to the command (R106). -/
theorem row_matches_iff {d : BitVec 32} {c : Command} :
    d &&& 0xFFFFFFFF#32 = encodeCommand c ↔ decodeCommand d = some c := by
  rw [decodeCommand_eq_some, show d &&& 0xFFFFFFFF#32 = d from BitVec.and_allOnes]

/-- Settles O4: a row matches a word exactly when the word decodes to the row's command. -/
theorem commandRowsDecideTheWord : Obligations.CommandRowsDecideTheWord := by
  refine ⟨fun r hr => ?_, fun d r hr r' hr' h h' => ?_, fun d r hr h => ?_, fun d h => ?_⟩
  · obtain ⟨c, rfl⟩ := mem_commandRows.1 hr
    rfl
  · obtain ⟨c, rfl⟩ := mem_commandRows.1 hr
    obtain ⟨c', rfl⟩ := mem_commandRows.1 hr'
    cases (row_matches_iff.1 h).symm.trans (row_matches_iff.1 h')
    rfl
  · obtain ⟨c, rfl⟩ := mem_commandRows.1 hr
    exact decode_c0_of_some (row_matches_iff.1 h)
  · refine decode_c0_of_none (Option.eq_none_iff_forall_ne_some.2 fun c hc => ?_)
    exact h _ (mem_commandRows.2 ⟨c, rfl⟩) (row_matches_iff.2 hc)

end Sys2Proof

namespace Sys2Proof.Machine

/-! ### The write to CMD -/

/-- The write of a command's word to CMD is the command (R111). -/
theorem exec_wr_encodeCommand (c : Command) (s : State) :
    exec (.wr 0x000 (encodeCommand c)) s = exec c.toInstr s :=
  writeCmd_of_decode (decodeCommand_encodeCommand c) s

/-- In the fault state every word but those of CLRERR and SRST is refused (R264). -/
theorem writeCmd_of_err {d : Word} {s : State} (he : s.eng.err = true) (h3 : d ≠ 0x3#32) (hF : d ≠ 0xF#32) :
    writeCmd d s = refuseWrite s := by
  rcases writeCmd_cases d s with ⟨-, -, -, h⟩ | ⟨hd, -⟩ | ⟨hd, -⟩ | hgated
  · exact h
  · exact absurd hd h3
  · exact absurd hd hF
  · simp [he] at hgated

/-- Outside the fault state a word that is no command faults (R105, R252). -/
theorem writeCmd_of_illegal {d : Word} {s : State} (he : s.eng.err = false) (hd : decodeCommand d = none) :
    writeCmd d s = raiseFault .illegalCmd d s := by
  rw [writeCmd, hd]
  exact gated_of_not_err he

/-- A write to CMD completes and leaves `ERR = 0`, or fails and leaves `ERR = 1` (R104). -/
theorem writeCmd_completes_or_fails (d : Word) (s : State) :
    (∃ t : State, writeCmd d s = writeOkay t ∧ t.trace = s.trace ∧ t.eng.err = false) ∨
    (∃ e : Engine, writeCmd d s = refuseWrite { s with eng := e } ∧ e.err = true) := by
  rcases writeCmd_cases d s with ⟨he, -, -, h⟩ | ⟨-, h⟩ | ⟨-, h⟩ | ⟨-, -, h⟩ | ⟨he, -, h⟩ |
    ⟨c, v, -, -, -, h⟩ | ⟨he, -, -, h⟩ | ⟨c, v, -, -, -, h⟩ | ⟨he, -, -, h⟩ | ⟨he, -, h⟩ | ⟨he, -, h⟩
  · exact .inr ⟨_, h, he⟩
  · exact .inl ⟨_, h, rfl, rfl⟩
  · exact .inl ⟨_, h, rfl, rfl⟩
  · exact .inr ⟨_, h, rfl⟩
  · exact .inl ⟨_, h, rfl, he⟩
  · exact .inr ⟨_, h, rfl⟩
  · exact .inl ⟨_, h, rfl, he⟩
  · exact .inr ⟨_, h, rfl⟩
  · exact .inl ⟨_, h, rfl, he⟩
  · exact .inl ⟨_, h, rfl, he⟩
  · exact .inl ⟨_, h, rfl, he⟩

/-- Settles O19: the cases of the dispatch; whatever the case, `ERR` afterwards tells how the write ended. -/
theorem cmdWriteDispatch : Obligations.CmdWriteDispatch := by
  intro d s
  refine ⟨?_, ?_, fun he h3 hF => writeCmd_of_err he h3 hF,
    fun he hd => writeCmd_of_illegal he (decodeCommand_eq_none.2 hd), ?_, ?_⟩
  · rintro - rfl
    exact exec_wr_encodeCommand .clrerr s
  · rintro - rfl
    exact exec_wr_encodeCommand .srst s
  · rintro c - rfl
    exact exec_wr_encodeCommand c s
  · rcases writeCmd_completes_or_fails d s with ⟨t, h, htr, he⟩ | ⟨e, h, he⟩
    · exact ⟨_, .okay, h, congrArg _ htr, fun _ => he, fun _ => rfl⟩
    · exact ⟨_, .error, h, rfl, nofun, fun h0 => absurd (he.symm.trans h0) (by decide)⟩

/-! ### Words put on the bus -/

/-- The bus request that issues the bits of an operation: a command word is written to CMD, a record is
issued as it stands (R108, R111). -/
def requestOfCode : Code → Request
  | .c0 d => Request.ofCommandWord d
  | .t0 t => Request.ofRecord t

/-- The bits of an operation, put on the bus, run as that operation. -/
theorem step_requestOfCode {c : Code} {i : Instr} (h : decode c = .ok i) (s : State) :
    step (s.issueNext (requestOfCode c)) = exec i s := by
  cases c with
  | c0 d =>
    obtain ⟨c, rfl, rfl⟩ := decode_c0_eq_ok.1 h
    exact (step_issueNext rfl s).trans (exec_wr_encodeCommand c s)
  | t0 t => exact step_issueNext h s

/-- The bits of a table row are issued in the format they are decoded in. -/
theorem requestOfTableWord_eq {nbits w : Nat} {c : Code} (h : codeOfTableWord nbits w = some c) :
    requestOfTableWord nbits w = requestOfCode c := by
  unfold codeOfTableWord at h
  unfold requestOfTableWord
  by_cases hn : nbits ≤ 32
  · rw [if_pos hn, Option.ite_none_right_eq_some] at h
    rw [if_pos hn, ← Option.some.inj h.2, requestOfCode]
  · rw [if_neg hn, Option.ite_none_right_eq_some] at h
    rw [if_neg hn, ← Option.some.inj h.2, requestOfCode]

/-- An operation read from a table row is read from the bits behind the row. -/
theorem decodeTableWord_eq_some {nbits w : Nat} {i : Instr} (h : decodeTableWord nbits w = some i) :
    ∃ c, codeOfTableWord nbits w = some c ∧ decode c = .ok i := by
  unfold decodeTableWord at h
  cases hc : codeOfTableWord nbits w with
  | none => simp [hc] at h
  | some c =>
    rw [hc] at h
    cases hd : decode c with
    | error e => simp [hd, Except.toOption] at h
    | ok j => exact ⟨c, rfl, by simpa [hd, Except.toOption] using h⟩

/-- Settles O46: the row's bits are issued in the format in which they decode. -/
theorem fetchedWordRunsDecodedInstr : Obligations.FetchedWordRunsDecodedInstr := by
  intro s nbits w i h
  obtain ⟨c, hc, hd⟩ := decodeTableWord_eq_some h
  rw [State.withFetchWord, requestOfTableWord_eq hc, step_requestOfCode hd]

/-! ### Programs -/

/-- The first transaction of a program is executed, then the rest is run (R112). -/
theorem runProgram_cons {q : Request} {i : Instr} {s v : State} (hd : decodeRequest q = .ok i)
    (hx : exec i s = .next v) (rest : List Request) : runProgram (q :: rest) s = runProgram rest v := by
  rw [runProgram, step_issueNext hd, hx]

/-- A response more in the trace is the last of the results. -/
theorem results_of_trace {s t : State} {r : Response} (h : t.trace = r :: s.trace) :
    t.results = s.results ++ [r] := by
  rw [State.results, h, List.reverse_cons, State.results]

/-- Settles O48, by induction on the program: the first transaction answers one response, and the rest runs from
the state it leaves. -/
theorem programsRunToTheirEnd : Obligations.ProgramsRunToTheirEnd := by
  intro prog
  induction prog with
  | nil => exact fun s _ => ⟨s, [], rfl, (List.append_nil _).symm, rfl, rfl, nofun⟩
  | cons q rest ih =>
    intro s hwf
    obtain ⟨hq, hrest⟩ := List.forall_mem_cons.1 hwf
    obtain ⟨i, hd⟩ := decodeRequest_of_wf hq
    obtain ⟨v, r, hx, htr, hp, -⟩ := exec_effect i s
    obtain ⟨t, results, hrun, hres, hlen, hpend, hk⟩ := ih v hrest
    have hv : ∀ l : List Response, v.results ++ l = s.results ++ r :: l := fun l => by
      rw [results_of_trace htr, List.append_assoc, List.singleton_append]
    refine ⟨t, r :: results, (runProgram_cons hd hx rest).trans hrun, hres.trans (hv results),
      congrArg (· + 1) hlen, hpend.trans hp, fun k p hkp => ?_⟩
    cases k with
    | zero =>
      obtain rfl : q = p := Option.some.inj hkp
      exact ⟨s, v, i, r, rfl, (List.append_nil _).symm, hd, hx, htr, rfl⟩
    | succ k =>
      obtain ⟨u, w, j, x, hu, hures, hdj, hxj, hwtr, hkx⟩ := hk k p hkp
      exact ⟨u, w, j, x, (runProgram_cons hd hx _).trans hu, hures.trans (hv _), hdj, hxj, hwtr, hkx⟩

end Sys2Proof.Machine
end

section
/-! PROOFS. The tables of 40_tables.md and the numbers they are rounded from (O51 to O54). Every angle of the
cosine basis is a multiple of `π/16`, so both statements about the basis are read off the cosines of these
multiples (`cosStep`): the ROM from their folding onto the first quadrant (R122) and half-angle bounds, the
orthonormality from a telescoping sum. -/

namespace Sys2Proof.Machine

/-! ### Ties -/

/-- Settles O51: at a tie the quotient of R15 is that of `(2j + 2)·d` and `2·d`. -/
theorem rhaqOddTiesAwayFromZero : Obligations.RhaqOddTiesAwayFromZero := by
  intro n d hd
  refine ⟨rhaq_neg n d, fun j hj => ?_⟩
  have hnum : 2 * n.natAbs + d = (j + 1) * (2 * d) := by rw [hj]; ring
  rw [rhaq, hnum, Nat.mul_div_cancel _ (by omega), Nat.cast_succ]

/-! ### Rounding a number known by its square -/

theorem rha_eq_of_sq {x : ℝ} {c : Nat} (hx : 0 ≤ x) (hlo : (c - 1 / 2 : ℝ) ^ 2 ≤ x ^ 2)
    (hhi : x ^ 2 < (c + 1 / 2 : ℝ) ^ 2) : rha x = c := by
  have hl : (c - 1 / 2 : ℝ) ≤ x := le_of_sq_le_sq hlo hx
  have hu : x < c + 1 / 2 := lt_of_pow_lt_pow_left₀ 2 (by positivity) hhi
  rw [rha_of_nonneg hx, Int.floor_eq_iff]
  constructor <;> push_cast <;> linarith

/-! ### The scale factors -/

theorem alpha_zero_sq : alpha 0 ^ 2 = 1 / 8 := by
  rw [alpha, if_pos rfl, Config.ALPHA0, div_pow, Real.sq_sqrt (by norm_num), one_pow]

theorem alpha_zero_nonneg : 0 ≤ alpha 0 := by
  rw [alpha, if_pos rfl, Config.ALPHA0]
  positivity

theorem alpha_of_ne_zero {p : Fin 8} (h : p ≠ 0) : alpha p = 1 / 2 := by
  rw [alpha, if_neg h, Config.ALPHA1]

theorem normProduct_comm (p q : Fin 8) : normProduct p q = normProduct q p := mul_comm _ _

theorem normProduct_zero_zero : normProduct 0 0 = 1 / 8 := by
  rw [normProduct, ← sq, alpha_zero_sq]

theorem normProduct_of_ne_zero {p q : Fin 8} (hp : p ≠ 0) (hq : q ≠ 0) : normProduct p q = 1 / 4 := by
  rw [normProduct, alpha_of_ne_zero hp, alpha_of_ne_zero hq]
  norm_num

/-- The inexact entry of R127: the square of `sqrt(2)/8 · 2^16` is `2^27`. -/
theorem rha_normProduct_zero_left {q : Fin 8} (hq : q ≠ 0) : rha (normProduct 0 q * 2 ^ 16) = 11585 := by
  have hval : normProduct 0 q * 2 ^ 16 = alpha 0 * 2 ^ 15 := by
    rw [normProduct, alpha_of_ne_zero hq]
    ring
  have hsq : (alpha 0 * 2 ^ 15) ^ 2 = 2 ^ 27 := by
    rw [mul_pow, alpha_zero_sq]
    norm_num
  rw [hval]
  refine rha_eq_of_sq (c := 11585) (mul_nonneg alpha_zero_nonneg (by positivity)) ?_ ?_ <;>
    rw [hsq] <;> norm_num

theorem nrom_zero_zero : nrom 0 0 = 8192 := rfl

theorem nrom_zero_left {q : Fin 8} (hq : q ≠ 0) : nrom 0 q = 11585 := by
  simp [nrom, hq]

theorem nrom_zero_right {p : Fin 8} (hp : p ≠ 0) : nrom p 0 = 11585 := by
  simp [nrom, hp]

theorem nrom_of_ne_zero {p q : Fin 8} (hp : p ≠ 0) (hq : q ≠ 0) : nrom p q = 16384 := by
  simp [nrom, hp, hq]

theorem rha_natCast (k : Nat) : rha (k : ℝ) = k := by
  rw [rha_of_nonneg k.cast_nonneg, Int.floor_eq_iff]
  constructor <;> push_cast <;> linarith

/-- Settles O53: one case per class of R127; only the mixed one is rounded. -/
theorem normRomIsRoundedProduct : Obligations.NormRomIsRoundedProduct := by
  intro p q
  by_cases hp : p = 0 <;> by_cases hq : q = 0
  · subst hp hq
    have hval : normProduct 0 0 * 2 ^ 16 = 8192 := by rw [normProduct_zero_zero]; norm_num
    have hrha : rha (8192 : ℝ) = 8192 := rha_natCast 8192
    simp [nrom_zero_zero, hval, hrha]
  · subst hp
    simp [nrom_zero_left hq, rha_normProduct_zero_left hq, hq]
  · subst hq
    simp [nrom_zero_right hp, normProduct_comm p, rha_normProduct_zero_left hp, hp]
  · have hval : normProduct p q * 2 ^ 16 = 16384 := by rw [normProduct_of_ne_zero hp hq]; norm_num
    have hrha : rha (16384 : ℝ) = 16384 := rha_natCast 16384
    simp [nrom_of_ne_zero hp hq, hval, hrha, hp, hq]

/-! ### Cosines of the multiples of `π/16` -/

/-- `c_k = cos(k·π/16)` (R122), here for every integer `k`. -/
noncomputable def cosStep (k : ℤ) : ℝ := Real.cos (k * (Real.pi / 16))

theorem cosb_eq_cosStep (m p : Fin 8) : cosb m p = cosStep ((2 * m.val + 1) * p.val) := by
  rw [cosb, cosStep]
  congr 1
  push_cast
  ring

theorem cosStep_zero : cosStep 0 = 1 := by simp [cosStep]

theorem cosStep_neg (k : ℤ) : cosStep (-k) = cosStep k := by
  rw [cosStep, Int.cast_neg, neg_mul, Real.cos_neg, cosStep]

theorem cosStep_add_sixteen (k : ℤ) : cosStep (k + 16) = - cosStep k := by
  rw [cosStep, cosStep, ← Real.cos_add_pi]
  congr 1
  push_cast
  ring

theorem cosStep_sixteen_sub (k : ℤ) : cosStep (16 - k) = - cosStep k := by
  rw [← cosStep_neg k, ← cosStep_add_sixteen, neg_add_eq_sub]

theorem cosStep_emod (k : ℤ) : cosStep (k % 32) = cosStep k := by
  rw [cosStep, cosStep, ← Real.cos_add_int_mul_two_pi _ (k / 32)]
  congr 1
  have hk : (k : ℝ) = (k % 32 : ℤ) + 32 * (k / 32 : ℤ) := by exact_mod_cast (Int.emod_add_mul_ediv k 32).symm
  rw [hk]
  ring

theorem cosStep_mul_cosStep (k l : ℤ) : cosStep k * cosStep l = (cosStep (k - l) + cosStep (k + l)) / 2 := by
  have h := Real.two_mul_cos_mul_cos (k * (Real.pi / 16)) (l * (Real.pi / 16))
  rw [← sub_mul, ← add_mul] at h
  simp only [cosStep]
  push_cast
  linarith

theorem cosStep_sq (k : ℤ) : cosStep k ^ 2 = (1 + cosStep (2 * k)) / 2 := by
  rw [sq, cosStep_mul_cosStep, sub_self, cosStep_zero, two_mul]

theorem cosStep_nonneg {k : ℤ} (h0 : 0 ≤ k) (h8 : k ≤ 8) : 0 ≤ cosStep k := by
  have h0' : (0 : ℝ) ≤ k := by exact_mod_cast h0
  have h8' : (k : ℝ) ≤ 8 := by exact_mod_cast h8
  apply Real.cos_nonneg_of_neg_pi_div_two_le_of_le <;> nlinarith [Real.pi_pos]

theorem cosStep_eight : cosStep 8 = 0 := by
  have := cosStep_sixteen_sub 8
  norm_num at this
  linarith

/-! ### The cosine ROM -/

/-- The half-angle step: bounds on `c_2k` give bounds on `c_k`. -/
theorem cosStep_mem_Icc {k : ℤ} {a b l u : ℝ} (h0 : 0 ≤ k) (h8 : k ≤ 8) (hb : 0 ≤ b)
    (h : cosStep (2 * k) ∈ Set.Icc l u) (hl : a ^ 2 ≤ (1 + l) / 2) (hu : (1 + u) / 2 ≤ b ^ 2) :
    cosStep k ∈ Set.Icc a b := by
  obtain ⟨hlo, hhi⟩ := h
  have hsq := cosStep_sq k
  exact ⟨le_of_sq_le_sq (by linarith) (cosStep_nonneg h0 h8), le_of_sq_le_sq (by linarith) hb⟩

/-- The half-angle step: bounds on `c_2k` decide how `c_k` is rounded. -/
theorem rha_cosStep {k : ℤ} {c : Nat} {l u : ℝ} (h0 : 0 ≤ k) (h8 : k ≤ 8)
    (h : cosStep (2 * k) ∈ Set.Icc l u) (hl : (c - 1 / 2 : ℝ) ^ 2 ≤ (1 + l) / 2 * (2 ^ 16) ^ 2)
    (hu : (1 + u) / 2 * (2 ^ 16) ^ 2 < (c + 1 / 2 : ℝ) ^ 2) : rha (cosStep k * 2 ^ 16) = c := by
  obtain ⟨hlo, hhi⟩ := h
  have hsq : (cosStep k * 2 ^ 16) ^ 2 = (1 + cosStep (2 * k)) / 2 * (2 ^ 16) ^ 2 := by
    rw [mul_pow, cosStep_sq]
  exact rha_eq_of_sq (mul_nonneg (cosStep_nonneg h0 h8) (by positivity)) (by linarith) (by linarith)

theorem cosStep_supplement_mem {j k : ℤ} {a b : ℝ} (h : cosStep k ∈ Set.Icc a b) (hjk : j = 16 - k) :
    cosStep j ∈ Set.Icc (-b) (-a) := by
  rwa [hjk, cosStep_sixteen_sub, Set.neg_mem_Icc_iff, neg_neg, neg_neg]

theorem cosStep_four_mem : cosStep 4 ∈ Set.Icc (0.7071067 : ℝ) 0.7071068 :=
  cosStep_mem_Icc (l := 0) (u := 0) (by decide) (by decide) (by norm_num)
    (by simp [cosStep_eight]) (by norm_num) (by norm_num)

theorem cosStep_two_mem : cosStep 2 ∈ Set.Icc (0.9238795 : ℝ) 0.9238796 :=
  cosStep_mem_Icc (by decide) (by decide) (by norm_num) cosStep_four_mem (by norm_num) (by norm_num)

theorem cosStep_six_mem : cosStep 6 ∈ Set.Icc (0.3826834 : ℝ) 0.3826835 :=
  cosStep_mem_Icc (by decide) (by decide) (by norm_num) (cosStep_supplement_mem cosStep_four_mem (by norm_num))
    (by norm_num) (by norm_num)

/-- The magnitudes of R123 are the cosines of the first quadrant, rounded; `c_8 = 0` included. -/
theorem rha_cosStep_eq_cromMagnitude {j : Nat} (hj : j ≤ 8) : rha (cosStep j * 2 ^ 16) = cromMagnitude j := by
  interval_cases j
  · exact rha_cosStep (c := 65536) (l := 1) (u := 1) (by decide) (by decide) (by simp [cosStep_zero])
      (by norm_num) (by norm_num)
  · exact rha_cosStep (c := 64277) (by decide) (by decide) cosStep_two_mem (by norm_num) (by norm_num)
  · exact rha_cosStep (c := 60547) (by decide) (by decide) cosStep_four_mem (by norm_num) (by norm_num)
  · exact rha_cosStep (c := 54491) (by decide) (by decide) cosStep_six_mem (by norm_num) (by norm_num)
  · exact rha_cosStep (c := 46341) (l := 0) (u := 0) (by decide) (by decide) (by simp [cosStep_eight])
      (by norm_num) (by norm_num)
  · exact rha_cosStep (c := 36410) (by decide) (by decide) (cosStep_supplement_mem cosStep_six_mem (by norm_num))
      (by norm_num) (by norm_num)
  · exact rha_cosStep (c := 25080) (by decide) (by decide) (cosStep_supplement_mem cosStep_four_mem (by norm_num))
      (by norm_num) (by norm_num)
  · exact rha_cosStep (c := 12785) (by decide) (by decide) (cosStep_supplement_mem cosStep_two_mem (by norm_num))
      (by norm_num) (by norm_num)
  · rw [Nat.cast_ofNat, cosStep_eight, zero_mul, rha_zero]
    rfl

/-- R122: the angle of `cosb[m][p]` is folded onto the first quadrant, with the sign of its quadrant. -/
theorem rha_cosb_eq_cromFolded (m p : Fin 8) : rha (cosb m p * 2 ^ 16) = cromFolded m p := by
  rw [cosb_eq_cosStep, ← cosStep_emod]
  unfold cromFolded
  have hk : ((2 * m.val + 1) * p.val : ℤ) % 32 = ((2 * m.val + 1) * p.val % 32 : Nat) := by norm_cast
  have hlt : (2 * m.val + 1) * p.val % 32 < 32 := Nat.mod_lt _ (by decide)
  rw [hk]
  generalize (2 * m.val + 1) * p.val % 32 = k at hlt ⊢
  have negated {j : Nat} (hj : j ≤ 8) (h : cosStep k = - cosStep j) :
      rha (cosStep k * 2 ^ 16) = - cromMagnitude j := by
    rw [h, neg_mul, rha_neg, rha_cosStep_eq_cromMagnitude hj]
  dsimp only
  split_ifs with h8 h16 h24
  · exact rha_cosStep_eq_cromMagnitude h8
  · refine negated (by omega) ?_
    rw [← cosStep_sixteen_sub]
    congr 1
    omega
  · refine negated (by omega) ?_
    rw [← cosStep_add_sixteen]
    congr 1
    omega
  · have hturn : cosStep k = cosStep (32 - k : Nat) := by
      rw [← cosStep_emod, ← cosStep_neg (32 - k : Nat), ← cosStep_emod (-_)]
      congr 1
      omega
    rw [hturn, rha_cosStep_eq_cromMagnitude (by omega)]

theorem crom_eq_cromFolded : ∀ m p : Fin 8, crom m p = cromFolded m p := by decide

/-- Settles O52: the table is the folding of its magnitudes, which are rounded cosines. -/
theorem cosineRomIsRoundedBasis : Obligations.CosineRomIsRoundedBasis :=
  ⟨fun m p => (crom_eq_cromFolded m p).trans (rha_cosb_eq_cromFolded m p).symm, by decide, by decide⟩

/-! ### Orthonormality -/

theorem sin_step_ne_zero {k : ℤ} (h : ¬ 16 ∣ k) : Real.sin (k * (Real.pi / 16)) ≠ 0 := by
  intro hsin
  obtain ⟨n, hn⟩ := Real.sin_eq_zero_iff.1 hsin
  have hk : (k : ℝ) = 16 * n := by
    have := Real.pi_ne_zero
    field_simp at hn
    linarith
  exact h ⟨n, by exact_mod_cast hk⟩

/-- `2·sin(kθ)·cos((2m+1)kθ)` is a difference of sines at `2m·kθ` and `(2m+2)·kθ`, so the sum over `m`
telescopes to `sin(16kθ)`, which is 0 for `θ = π/16`. -/
theorem sum_cosStep_odd_mul {k : ℤ} (h : ¬ 16 ∣ k) : ∑ m : Fin 8, cosStep ((2 * m.val + 1) * k) = 0 := by
  have telescope (m : ℕ) : 2 * Real.sin (k * (Real.pi / 16)) * cosStep ((2 * m + 1) * k) =
      Real.sin (2 * (m + 1 : ℕ) * (k * (Real.pi / 16))) - Real.sin (2 * m * (k * (Real.pi / 16))) := by
    rw [Real.sin_sub_sin, cosStep]
    push_cast
    ring_nf
  have hend : Real.sin (2 * (8 : ℕ) * (k * (Real.pi / 16))) = 0 := by
    rw [← Real.sin_int_mul_pi k]
    push_cast
    ring_nf
  have hsum : 2 * Real.sin (k * (Real.pi / 16)) * ∑ m : Fin 8, cosStep ((2 * m.val + 1) * k) = 0 := by
    rw [Fin.sum_univ_eq_sum_range (fun m : ℕ => cosStep ((2 * m + 1) * k)), Finset.mul_sum,
      Finset.sum_congr rfl fun m _ => telescope m,
      Finset.sum_range_sub fun m : ℕ => Real.sin (2 * m * (k * (Real.pi / 16))), hend]
    simp
  exact (mul_eq_zero.1 hsum).resolve_left (mul_ne_zero two_ne_zero (sin_step_ne_zero h))

theorem sum_cosStep_odd_mul_zero : ∑ m : Fin 8, cosStep ((2 * m.val + 1) * 0) = 8 := by
  simp [cosStep_zero]

/-- R125: the sums of `cosb[m][p]·cosb[m][p']` are those of the cosines at `p - p'` and `p + p'`. -/
theorem sum_cosb_mul_cosb (p p' : Fin 8) : ∑ m : Fin 8, cosb m p * cosb m p' =
    (∑ m : Fin 8, cosStep ((2 * m.val + 1) * (p.val - p'.val)) +
      ∑ m : Fin 8, cosStep ((2 * m.val + 1) * (p.val + p'.val))) / 2 := by
  rw [← Finset.sum_add_distrib, Finset.sum_div]
  refine Finset.sum_congr rfl fun m _ => ?_
  rw [cosb_eq_cosStep, cosb_eq_cosStep, cosStep_mul_cosStep, mul_sub, mul_add]

theorem sum_cosb_mul_cosb_of_ne {p p' : Fin 8} (h : p ≠ p') : ∑ m : Fin 8, cosb m p * cosb m p' = 0 := by
  have hne : p.val ≠ p'.val := Fin.val_ne_of_ne h
  rw [sum_cosb_mul_cosb, sum_cosStep_odd_mul (by omega), sum_cosStep_odd_mul (by omega)]
  norm_num

theorem sum_cosb_zero_mul_self : ∑ m : Fin 8, cosb m 0 * cosb m 0 = 8 := by
  simp [sum_cosb_mul_cosb, cosStep_zero]

theorem sum_cosb_mul_self {p : Fin 8} (h : p ≠ 0) : ∑ m : Fin 8, cosb m p * cosb m p = 4 := by
  have hne : p.val ≠ 0 := Fin.val_ne_of_ne h
  rw [sum_cosb_mul_cosb, sub_self, sum_cosStep_odd_mul_zero, sum_cosStep_odd_mul (by omega)]
  norm_num

/-- Settles O54: the scale factors are those that make the column sums of R125 one. -/
theorem scaledBasisOrthonormal : Obligations.ScaledBasisOrthonormal := by
  intro p p'
  have hscale : ∑ m : Fin 8, (alpha p * cosb m p) * (alpha p' * cosb m p') =
      normProduct p p' * ∑ m : Fin 8, cosb m p * cosb m p' := by
    rw [Finset.mul_sum]
    exact Finset.sum_congr rfl fun m _ => mul_mul_mul_comm _ _ _ _
  rw [hscale]
  split_ifs with h
  · subst h
    by_cases h0 : p = 0
    · rw [h0, normProduct_zero_zero, sum_cosb_zero_mul_self]
      norm_num
    · rw [normProduct_of_ne_zero h0 h0, sum_cosb_mul_self h0]
      norm_num
  · rw [sum_cosb_mul_cosb_of_ne h, mul_zero]

end Sys2Proof.Machine
end

section
/-! PROOFS. The forward path of 41_forward.md (O31, O33, O55, O56, O58 to O60). The transform is taken apart along
its two factors: a product of two column sums for a constant block, a product of two column weights for the bound
on the coefficients, a product of matrices for the real inverse. -/

namespace Sys2Proof.Machine
open Sys2Proof.Spec

/-! ### The zigzag walk -/

/-- The rank of a frequency pair on the walk of R132: its anti-diagonal first, then the place on it. -/
def walkRank (p q : Fin 8) : Nat :=
  8 * (p.val + q.val) + if (p.val + q.val) % 2 = 0 then 7 - p.val else p.val

theorem walkedBefore_iff_walkRank_lt (p q p' q' : Fin 8) :
    WalkedBefore p q p' q' ↔ walkRank p q < walkRank p' q' := by
  simp only [WalkedBefore, walkRank, Fin.lt_def]
  split_ifs <;> omega

theorem walkRank_div_eight (p q : Fin 8) : walkRank p q / 8 = p.val + q.val := by
  unfold walkRank
  split <;> omega

/-- The positions number the pairs in the order of the walk: every position is a step forward (R132, R133). -/
theorem strictMono_walkRank_izz : StrictMono fun k => walkRank (rowOf (izz k)) (colOf (izz k)) :=
  Fin.strictMono_iff_lt_succ.2 (by decide)

theorem zz_lt_zz_iff (p q p' q' : Fin 8) :
    zz (natural p q) < zz (natural p' q') ↔ WalkedBefore p q p' q' := by
  simpa [izz_zz, walkedBefore_iff_walkRank_lt] using
    (strictMono_walkRank_izz.lt_iff_lt (a := zz (natural p q)) (b := zz (natural p' q'))).symm

theorem hwZigzag_valid : hwZigzag.Valid := by
  refine ⟨izz_zz, zz_izz, rfl, fun k l hkl => ?_⟩
  have hdiag := Nat.div_le_div_right (c := 8) (strictMono_walkRank_izz.monotone hkl)
  simp only [walkRank_div_eight] at hdiag
  exact hdiag

/-- Settles O60: the inverses and position 0 are what validity says of the two maps of a zigzag. -/
theorem unZigzagInvertsFlatten : Obligations.UnZigzagInvertsFlatten := by
  refine ⟨hwZigzag_valid, zz_lt_zz_iff, fun Z z ⟨hizz, hzz, hdc, _⟩ => ⟨?_, ?_, ?_⟩⟩
  · funext i
    exact congrArg z (hizz i)
  · funext k
    exact congrArg z (hzz k)
  · have hdc' : Z.izz 0 = 0 := by simpa only [hdc] using hizz 0
    exact congrArg z hdc'

/-! ### The real transform as a product of matrices -/

/-- The matrix of the scaled cosines `alpha(p)·cosb[m][p]`, row `m`, column `p` (R125). -/
noncomputable def scaledBasis := Matrix.of fun m p : Fin 8 => alpha p * cosb m p

/-- A block as a matrix (R13). -/
def blockMatrix (S : Fin 64 → ℝ) := Matrix.of fun m n : Fin 8 => S (natural m n)

theorem transpose_scaledBasis_mul_self : scaledBasis.transpose * scaledBasis = 1 := by
  ext p q
  rw [Matrix.mul_apply, Matrix.one_apply]
  exact scaledBasisOrthonormal p q

theorem scaledBasis_mul_transpose_self : scaledBasis * scaledBasis.transpose = 1 :=
  mul_eq_one_comm.1 transpose_scaledBasis_mul_self

theorem blockMatrix_forwardReal (S : Fin 64 → ℝ) :
    blockMatrix (fun i => forwardReal S (rowOf i) (colOf i)) =
      scaledBasis.transpose * blockMatrix S * scaledBasis := by
  ext p q
  simp only [blockMatrix, scaledBasis, forwardReal, Matrix.mul_apply, Matrix.of_apply,
    Matrix.transpose_apply, rowOf_natural, colOf_natural, Finset.sum_mul, Finset.mul_sum]
  rw [Finset.sum_comm]
  exact Finset.sum_congr rfl fun n _ => Finset.sum_congr rfl fun m _ => by ring

theorem blockMatrix_backwardReal (D : Fin 64 → ℝ) :
    blockMatrix (fun i => backwardReal D (rowOf i) (colOf i)) =
      scaledBasis * blockMatrix D * scaledBasis.transpose := by
  ext m n
  simp only [blockMatrix, scaledBasis, backwardReal, Matrix.mul_apply, Matrix.of_apply,
    Matrix.transpose_apply, rowOf_natural, colOf_natural, Finset.sum_mul]
  rw [Finset.sum_comm]
  exact Finset.sum_congr rfl fun q _ => Finset.sum_congr rfl fun p _ => by ring

theorem mul_mul_mul_of_mul_eq_one {M : Type} [Monoid M] {a b : M} (h : a * b = 1) (x : M) :
    a * (b * x * a) * b = x := by
  calc a * (b * x * a) * b = a * b * x * (a * b) := by simp only [mul_assoc]
    _ = x := by rw [h, one_mul, mul_one]

/-- Settles O55: the transforms are `Aᵀ·S·A` and `A·D·Aᵀ` for an orthogonal matrix `A`. -/
theorem realBackwardInvertsForward : Obligations.RealBackwardInvertsForward := by
  constructor
  · intro S m n
    have h := blockMatrix_backwardReal fun i => forwardReal S (rowOf i) (colOf i)
    rw [blockMatrix_forwardReal, mul_mul_mul_of_mul_eq_one scaledBasis_mul_transpose_self] at h
    simpa [blockMatrix] using congrFun (congrFun h m) n
  · intro D p q
    have h := blockMatrix_forwardReal fun i => backwardReal D (rowOf i) (colOf i)
    rw [blockMatrix_backwardReal, mul_mul_mul_of_mul_eq_one transpose_scaledBasis_mul_self] at h
    simpa [blockMatrix] using congrFun (congrFun h p) q

/-! ### The fixed-point transform -/

theorem forwardAcc_eq_sum (S : IntBlock) (p q : Fin 8) :
    forwardAcc S p q = ∑ m, ∑ n, S (natural m n) * crom m p * crom n q := sum64_eq_sum _

theorem fxScale_eq : fxScale = 2 ^ 48 := rfl

theorem nrom_comm (p q : Fin 8) : nrom p q = nrom q p := by
  simp only [nrom, and_comm, or_comm]

/-- Settles O58: exchanging the two sums exchanges the two cosine factors, and the normalisation is symmetric. -/
theorem forwardCommutesWithTranspose : Obligations.ForwardCommutesWithTranspose := by
  intro S Q i
  have hacc (p q : Fin 8) :
      forwardAcc (fun j => S (natural (colOf j) (rowOf j))) p q = forwardAcc S q p := by
    simp only [forwardAcc_eq_sum, rowOf_natural, colOf_natural, mul_right_comm _ (crom _ p)]
    exact Finset.sum_comm
  simp only [quantize, forwardNum, hacc, nrom_comm (rowOf i), rowOf_natural, colOf_natural]

/-! ### A constant block -/

theorem sum_sum_mul_mul {R : Type} [CommSemiring R] (s : R) (f g : Fin 8 → R) :
    ∑ m, ∑ n, s * f m * g n = s * ((∑ m, f m) * ∑ n, g n) := by
  simp_rw [Finset.sum_mul_sum, Finset.mul_sum, mul_assoc]

theorem eq_zero_iff_row_col (i : Fin 64) : i = 0 ↔ rowOf i = 0 ∧ colOf i = 0 := by
  simp only [Fin.ext_iff, rowOf, colOf, Fin.val_zero]
  omega

theorem sum_crom (p : Fin 8) : ∑ m, crom m p = if p = 0 then 524288 else 0 := by
  obtain ⟨-, hdc, hac⟩ := cosineRomIsRoundedBasis
  split_ifs with h
  · rw [h, hdc]
  · exact hac p h

theorem cosb_zero (m : Fin 8) : cosb m 0 = 1 := by
  simp [cosb]

theorem sum_cosb (p : Fin 8) : ∑ m, cosb m p = if p = 0 then 8 else 0 := by
  split_ifs with h
  · simp [h, cosb_zero]
  · simpa [cosb_zero] using sum_cosb_mul_cosb_of_ne h

theorem forwardNum_const (s : Int) (p q : Fin 8) :
    forwardNum (fun _ => s) p q = if p = 0 ∧ q = 0 then 8 * s * 2 ^ 48 else 0 := by
  have hsplit : forwardNum (fun _ => s) p q = nrom p q * (s * ((∑ m, crom m p) * ∑ n, crom n q)) := by
    rw [forwardNum, forwardAcc_eq_sum, sum_sum_mul_mul]
  rw [hsplit, sum_crom, sum_crom]
  by_cases hp : p = 0 <;> by_cases hq : q = 0 <;> simp [hp, hq, nrom_zero_zero]
  ring

theorem forwardReal_const (s : ℝ) (p q : Fin 8) :
    forwardReal (fun _ => s) p q = if p = 0 ∧ q = 0 then 8 * s else 0 := by
  have hsplit : forwardReal (fun _ => s) p q = normProduct p q * (s * ((∑ m, cosb m p) * ∑ n, cosb n q)) := by
    rw [forwardReal, sum_sum_mul_mul, normProduct]
  rw [hsplit, sum_cosb, sum_cosb]
  by_cases hp : p = 0 <;> by_cases hq : q = 0 <;> simp [hp, hq, normProduct_zero_zero]
  ring

/-- Settles O56: the column sums leave the DC coefficient `8s`, and `rhaq` rounds the exact quotient. -/
theorem constantBlockHasDcOnly : Obligations.ConstantBlockHasDcOnly := by
  intro s Q hQ i
  simp only [quantize, quantizeReal, forwardNum_const, forwardReal_const, ← eq_zero_iff_row_col]
  split_ifs with h
  · subst h
    refine ⟨?_, rfl⟩
    have hQ0 := hQ 0
    have hcast : (((Q 0).toNat : ℕ) : ℝ) = Q 0 := by exact_mod_cast Int.toNat_of_nonneg (by omega)
    rw [rhaqRoundsTheQuotient _ _ (Nat.mul_pos (by omega) (by decide))]
    congr 1
    have : (Q 0 : ℝ) ≠ 0 := by exact_mod_cast (by omega : Q 0 ≠ 0)
    push_cast [fxScale_eq, hcast]
    field_simp
  · simp

/-! ### The range of the quotients -/

/-- The weight of a column of the cosine ROM: the most it can make of samples of magnitude 1. -/
def cromWeight (p : Fin 8) : Int := ∑ m, |crom m p|

theorem abs_forwardAcc_le {S : IntBlock} {b : Int} (hS : ∀ i, |S i| ≤ b) (p q : Fin 8) :
    |forwardAcc S p q| ≤ b * (cromWeight p * cromWeight q) := by
  calc |forwardAcc S p q|
      ≤ ∑ m, ∑ n, |S (natural m n) * crom m p * crom n q| := by
        rw [forwardAcc_eq_sum]
        exact (Finset.abs_sum_le_sum_abs _ _).trans
          (Finset.sum_le_sum fun m _ => Finset.abs_sum_le_sum_abs _ _)
    _ ≤ ∑ m, ∑ n, b * |crom m p| * |crom n q| := by
        refine Finset.sum_le_sum fun m _ => Finset.sum_le_sum fun n _ => ?_
        rw [abs_mul, abs_mul]
        gcongr
        exact hS _
    _ = b * (cromWeight p * cromWeight q) := sum_sum_mul_mul _ _ _

/-- The bound 1024 on the coefficients of samples in range (R151), met by the ROMs up to their rounding. -/
theorem nrom_mul_cromWeight_le : ∀ p q : Fin 8,
    |nrom p q| * (128 * (cromWeight p * cromWeight q)) ≤ 1025 * 2 ^ 48 := by decide

theorem abs_forwardNum_le {S : IntBlock} (hS : ∀ i, |S i| ≤ 128) (p q : Fin 8) :
    |forwardNum S p q| ≤ 1025 * 2 ^ 48 := by
  rw [forwardNum, abs_mul]
  exact (mul_le_mul_of_nonneg_left (abs_forwardAcc_le hS p q) (abs_nonneg _)).trans
    (nrom_mul_cromWeight_le p q)

theorem abs_sgn (n : Int) : |sgn n| = 1 := by
  unfold sgn
  split <;> rfl

/-- A quotient below `c + 1/2` is rounded to at most `c`. -/
theorem abs_rhaq_le {n : Int} {d c : Nat} (h : 2 * |n| < (2 * c + 1) * d) : |rhaq n d| ≤ c := by
  have hnat : 2 * n.natAbs < (2 * c + 1) * d := by
    rw [Int.abs_eq_natAbs] at h
    exact_mod_cast h
  have hdiv : (2 * n.natAbs + d) / (2 * d) < c + 1 :=
    Nat.div_lt_of_lt_mul (by linarith [mul_comm (2 * d) (c + 1)])
  rw [rhaq, abs_mul, abs_sgn, one_mul, Nat.abs_cast]
  exact_mod_cast Nat.le_of_lt_succ hdiv

/-- Settles O59: the coefficients stay below 1025, and `1025 / 9 < 127.5`. -/
theorem noOverflowFromNineUp : Obligations.NoOverflowFromNineUp := by
  intro Z S Q hS hQ
  have hrange (i : Fin 64) : |quantize S Q i| ≤ 127 := by
    refine abs_rhaq_le (c := 127) ?_
    have hnum := abs_forwardNum_le (S := S) (fun j => abs_le.2 ⟨(hS j).1, by linarith [(hS j).2]⟩)
      (rowOf i) (colOf i)
    have hq := hQ i
    rw [fxScale_eq]
    omega
  rw [← Bool.not_eq_true]
  intro hovf
  obtain ⟨i, hi⟩ := (anySaturated_iff _).1 hovf
  have := abs_le.1 (hrange i)
  omega

/-! ### The commands on good operands -/

theorem exec_fwd_of_good {s : State} (he : s.eng.err = false) (hq : MatrixGood s.eng)
    (hs : s.eng.sbm = BitVec.allOnes 16) :
    exec .fwd s = .next (after s (.write .okay) s.eng.forward) := by
  have hf : forwardFault s.eng = none := (forwardFault_eq_none _).2 ⟨hq.1, hq.2, hs⟩
  show execFwd s = _
  rw [execFwd, gated_of_not_err he, hf]
  rfl

theorem exec_bwd_of_good {s : State} (he : s.eng.err = false) (hq : MatrixGood s.eng)
    (hc : s.eng.cbm = BitVec.allOnes 16) :
    exec .bwd s = .next (after s (.write .okay) s.eng.backward) := by
  have hf : backwardFault s.eng = none := (backwardFault_eq_none _).2 ⟨hq.1, hq.2, hc⟩
  show execBwd s = _
  rw [execBwd, gated_of_not_err he, hf]
  rfl

theorem getElem_byteBlock (f : IntBlock) (k : Fin 64) : (byteBlock f)[k] = u8 (f k) :=
  getElem_tabulate _ _ _

/-- `CB` after FWD: position `ZZ[i]` holds the narrowed quotient of natural index `i` (R155, R156). -/
theorem forward_cb_zz (e : Engine) (i : Fin 64) :
    e.forward.cb[zz i] = u8 (sat8 (quantize (signedBlock e.sb) (matrixBlock e.qm) i)) := by
  rw [Engine.forward_cb, getElem_byteBlock, hwDatapath_fdctq]
  show u8 (sat8 (quantize _ _ (izz (zz i)))) = _
  rw [izz_zz]

theorem quantize_natural (e : Engine) (p q : Fin 8) :
    quantize (signedBlock e.sb) (matrixBlock e.qm) (natural p q) = quotient e.sb e.qm p q := by
  simp only [quantize, forwardNum, forwardAcc_eq_sum, quotient, signedBlock, matrixBlock, s8_eq_toInt,
    rowOf_natural, colOf_natural, Int.toNat_natCast]
  rfl

/-- Settles O31: the result block and the overflow bit of R157, read back entry by entry. -/
theorem fwdTransformsBlock : Obligations.FwdTransformsBlock := by
  intro s he hq hs
  refine ⟨s.eng.forward.cb, s.eng.forward.ovf, exec_fwd_of_good he hq hs, fun p q => ?_, ?_⟩
  · obtain ⟨hlo, hhi⟩ := sat8_bounds (quotient s.eng.sb s.eng.qm p q)
    rw [forward_cb_zz, quantize_natural, ← s8_eq_toInt, s8_u8 hlo hhi]
    exact clamp_eq_max_min _ (by decide)
  · have hsat : anySaturated (quantize (signedBlock s.eng.sb) (matrixBlock s.eng.qm)) = true ↔
        ∃ p q : Fin 8, quotient s.eng.sb s.eng.qm p q < -128 ∨ 127 < quotient s.eng.sb s.eng.qm p q := by
      simp only [anySaturated_iff, ← quantize_natural]
      exact ⟨fun ⟨i, h⟩ => ⟨rowOf i, colOf i, by rwa [natural_rowOf_colOf]⟩, fun ⟨p, q, h⟩ => ⟨_, h⟩⟩
    rw [← hsat, Engine.forward_ovf, Bool.or_eq_true, hwDatapath_fdctq]
    rfl

/-- A good matrix has entries of at least 1. -/
theorem one_le_matrixBlock {e : Engine} (hq : MatrixGood e) (i : Fin 64) : 1 ≤ matrixBlock e.qm i := by
  have hne : (e.qm[i]).toNat ≠ 0 := fun h => hq.2 i (BitVec.eq_of_toNat_eq h)
  simp only [matrixBlock]
  omega

/-- With no coefficient at all every pixel is mid-grey (R187 (a)). -/
theorem idctq_zero (Z : Config.Zigzag) (Q : IntBlock) (i : Fin 64) : idctq Z (fun _ => 0) Q i = 128 := by
  have hdeq : dequantize Z (fun _ => 0) Q = fun _ => 0 := funext fun j => zero_mul _
  have hacc (m n : Fin 8) : backwardAcc (fun _ => 0) m n = 0 := by simp [backwardAcc, sum64_eq_sum]
  simp [idctq, hdeq, reconstruct, hacc, toIntensity, clamp]

theorem signedBlock_zero {v : Block} (h : ∀ i : Fin 64, v[i] = 0#8) : signedBlock v = fun _ => 0 :=
  funext fun i => by rw [signedBlock, h i]; rfl

/-- Settles O33: the forward command gives a zero block by O56 at `s = 0`, which decompresses to mid-grey. -/
theorem constantMidGreyRoundTrip : Obligations.ConstantMidGreyRoundTrip := by
  intro s he hq hs hgrey
  have hquant (i : Fin 64) : quantize (signedBlock s.eng.sb) (matrixBlock s.eng.qm) i = 0 := by
    rw [signedBlock_zero hgrey, (constantBlockHasDcOnly 0 _ (one_le_matrixBlock hq) i).1]
    simp
  have hcb (k : Fin 64) : s.eng.forward.cb[k] = 0#8 := by
    rw [← zz_izz k, forward_cb_zz, hquant]
    rfl
  have hovf : anySaturated (quantize (signedBlock s.eng.sb) (matrixBlock s.eng.qm)) = false := by
    rw [← Bool.not_eq_true, anySaturated_iff]
    simp [hquant]
  refine ⟨_, _, exec_fwd_of_good he hq hs, exec_bwd_of_good he hq rfl, hcb, ?_, fun i => ?_, rfl, rfl⟩
  · show s.eng.forward.ovf = _
    rw [Engine.forward_ovf, hwDatapath_fdctq, fdctq, finishForward, hovf, Bool.or_false]
  · show s.eng.forward.backward.pb[i] = _
    rw [Engine.backward_pb, getElem_byteBlock, signedBlock_zero hcb, hwDatapath_idctq, idctq_zero]
    rfl

end Sys2Proof.Machine
end

section
/-! PROOFS. The backward path of 42_backward.md (O32, O57). Both statements are about the sum of R184: O32 reads its
rounded value back from `PB`, and in O57 only its term of frequency `(0,0)` is left. -/

namespace Sys2Proof.Machine
open Sys2Proof.Spec

/-! ### The reconstruction -/

theorem backwardAcc_eq_sum (deq : IntBlock) (m n : Fin 8) :
    backwardAcc deq m n = ∑ p, ∑ q, nrom p q * deq (natural p q) * crom m p * crom n q := sum64_eq_sum _

theorem toIntensity_eq_max_min (r : Int) : toIntensity r = max 0 (min 255 (r + 128)) :=
  clamp_eq_max_min _ (by decide)

/-- A pixel written as a byte reads back as the pixel (R25, R185). -/
theorem toNat_u8_toIntensity (r : Int) : ((u8 (toIntensity r)).toNat : Int) = toIntensity r := by
  obtain ⟨hlo, hhi⟩ := clamp_bounds (r + 128) (lo := 0) (hi := 255) (by decide)
  exact toNat_u8 hlo hhi

theorem reconstruct_natural (e : Engine) (m n : Fin 8) :
    reconstruct (dequantize hwZigzag (signedBlock e.cb) (matrixBlock e.qm)) (natural m n) =
      sample e.cb e.qm m n := by
  simp only [reconstruct, backwardAcc_eq_sum, dequantize, unZigzag, signedBlock, matrixBlock, s8_eq_toInt,
    rowOf_natural, colOf_natural]
  rfl

/-- Settles O32: the result block of R186, read back entry by entry. -/
theorem bwdReconstructsBlock : Obligations.BwdReconstructsBlock := by
  intro s he hq hc
  refine ⟨s.eng.backward.pb, exec_bwd_of_good he hq hc, fun m n => ?_⟩
  rw [Engine.backward_pb, getElem_byteBlock, hwDatapath_idctq, idctq, toNat_u8_toIntensity,
    reconstruct_natural, toIntensity_eq_max_min]

/-! ### A block with DC alone -/

theorem natural_eq_zero_iff (p q : Fin 8) : natural p q = 0 ↔ p = 0 ∧ q = 0 := by
  rw [eq_zero_iff_row_col, rowOf_natural, colOf_natural]

/-- Only the DC term of a sum over the frequency pairs is left when every other one is 0. -/
theorem sum_sum_eq_dc {R : Type} [AddCommMonoid R] {f : Fin 8 → Fin 8 → R}
    (h : ∀ p q, natural p q ≠ 0 → f p q = 0) : ∑ p, ∑ q, f p q = f 0 0 := by
  have hrow (p : Fin 8) (hp : p ≠ 0) : ∑ q, f p q = 0 :=
    Finset.sum_eq_zero fun q _ => h p q fun h0 => hp ((natural_eq_zero_iff p q).1 h0).1
  have hcol (q : Fin 8) (hq : q ≠ 0) : f 0 q = 0 := h 0 q fun h0 => hq ((natural_eq_zero_iff 0 q).1 h0).2
  rw [Fintype.sum_eq_single 0 hrow, Fintype.sum_eq_single 0 hcol]

theorem crom_zero : ∀ m : Fin 8, crom m 0 = 65536 := by decide

theorem backwardAcc_dc {deq : IntBlock} (h : ∀ i, i ≠ 0 → deq i = 0) (m n : Fin 8) :
    backwardAcc deq m n = deq 0 * 2 ^ 45 := by
  have hdc : backwardAcc deq m n = nrom 0 0 * deq 0 * crom m 0 * crom n 0 := by
    rw [backwardAcc_eq_sum]
    exact sum_sum_eq_dc fun p q hpq => by simp [h _ hpq]
  rw [hdc, nrom_zero_zero, crom_zero, crom_zero]
  ring

theorem backwardReal_dc {D : Fin 64 → ℝ} (h : ∀ i, i ≠ 0 → D i = 0) (m n : Fin 8) :
    backwardReal D m n = D 0 / 8 := by
  have hdc : backwardReal D m n = normProduct 0 0 * D 0 * cosb m 0 * cosb n 0 :=
    sum_sum_eq_dc fun p q hpq => by simp [h _ hpq]
  rw [hdc, normProduct_zero_zero, cosb_zero, cosb_zero]
  ring

theorem reconstruct_dc {deq : IntBlock} (h : ∀ i, i ≠ 0 → deq i = 0) (i : Fin 64) :
    reconstruct deq i = rha ((deq 0 : ℝ) / 8) := by
  rw [reconstruct, backwardAcc_dc h, rhaqRoundsTheQuotient _ _ (by decide)]
  congr 1
  push_cast [fxScale_eq]
  ring

theorem reconstructReal_dc {deq : IntBlock} (h : ∀ i, i ≠ 0 → deq i = 0) (i : Fin 64) :
    reconstructReal deq i = rha ((deq 0 : ℝ) / 8) := by
  rw [reconstructReal, backwardReal_dc fun j hj => by rw [h j hj, Int.cast_zero]]

theorem dequantize_zero {Z : Config.Zigzag} (hZ : Z.Valid) (B Q : IntBlock) :
    dequantize Z B Q 0 = B 0 * Q 0 := by
  obtain ⟨-, -, hdc, -⟩ := hZ
  rw [dequantize, unZigzag, hdc]

/-- A valid zigzag puts DC, and nothing else, at position 0 (R133). -/
theorem zz_ne_zero {Z : Config.Zigzag} (hZ : Z.Valid) {i : Fin 64} (hi : i ≠ 0) : Z.zz i ≠ 0 := by
  obtain ⟨hizz, -, hdc, -⟩ := hZ
  exact fun h => hi (Function.LeftInverse.injective hizz (h.trans hdc.symm))

theorem dequantize_eq_zero {Z : Config.Zigzag} (hZ : Z.Valid) {B : IntBlock} (hB : ∀ k, k ≠ 0 → B k = 0)
    (Q : IntBlock) (i : Fin 64) (hi : i ≠ 0) : dequantize Z B Q i = 0 := by
  rw [dequantize, unZigzag, hB _ (zz_ne_zero hZ hi), zero_mul]

/-- Settles O57: the DC term alone is `2^45` times the dequantized coefficient over `2^48`, and an eighth of it in
the reals. -/
theorem dcOnlyBlockIsConstant : Obligations.DcOnlyBlockIsConstant := by
  intro Z B Q hZ hB i
  have hac := dequantize_eq_zero hZ hB Q
  simp only [idctq, idctqReal, toIntensity_eq_max_min, reconstruct_dc hac, reconstructReal_dc hac,
    dequantize_zero hZ, Int.cast_mul, and_self]

end Sys2Proof.Machine
end

section
/-! PROOFS. The control commands of 43_control.md (O25 to O30): which commands the fault state refuses, what the
others do outside it, and what the buffers and the transforms answer once their masks are cleared. -/

namespace Sys2Proof.Machine
open Sys2Proof.Spec

/-! ### Commands by fault state -/

/-- In the fault state every command but CLRERR and SRST is refused (R205, R264). -/
theorem exec_toInstr_of_err {c : Command} {s : State} (he : s.eng.err = true) (hclr : c ≠ .clrerr)
    (hrst : c ≠ .srst) : exec c.toInstr s = .next (after s (.write .error) s.eng) :=
  (exec_wr_encodeCommand c s).symm.trans
    (writeCmd_of_err he (encodeCommand_injective.ne hclr) (encodeCommand_injective.ne hrst))

/-- Outside the fault state every command answers OKAY or enters the fault state (R205). -/
theorem exec_toInstr_of_not_err {s : State} (he : s.eng.err = false) (c : Command) :
    ∃ t, exec c.toInstr s = .next t ∧
      (t.trace = .write .okay :: s.trace ∨
        t.trace = .write .error :: s.trace ∧ s.eng.err = false ∧ t.eng.err = true) := by
  rw [← exec_wr_encodeCommand c s]
  rcases writeCmd_completes_or_fails (encodeCommand c) s with ⟨t, h, htr, -⟩ | ⟨e, h, he'⟩
  · exact ⟨_, h, .inl (congrArg _ htr)⟩
  · exact ⟨_, h, .inr ⟨rfl, he, he'⟩⟩

/-- Settles O30: CLRERR and SRST look at no flag, and the rest is the dispatch of the write to CMD. -/
theorem commandsByFaultState : Obligations.CommandsByFaultState := by
  intro c d s
  refine ⟨?_, exec_toInstr_of_err, fun he hd => writeCmd_of_err he (hd .clrerr) (hd .srst)⟩
  rintro (he | rfl | rfl)
  · exact exec_toInstr_of_not_err he c
  · exact ⟨_, rfl, .inl rfl⟩
  · exact ⟨_, rfl, .inl rfl⟩

/-- Settles O25: outside the fault state the guard passes, and nothing stands behind it. -/
theorem nopDoesNothing : Obligations.NopDoesNothing := fun _ =>
  ⟨gated_of_not_err, fun he => exec_toInstr_of_err (c := .nop) he nofun nofun⟩

/-- Settles O26: the return from the fault state looks at no flag and clears the record alone. -/
theorem clrerrLeavesFaultState : Obligations.ClrerrLeavesFaultState := fun _ => rfl

/-- Settles O27: outside the fault state the guard passes, and one flag is cleared. -/
theorem clrovfClearsOverflow : Obligations.ClrovfClearsOverflow := fun _ =>
  ⟨gated_of_not_err, fun he => exec_toInstr_of_err (c := .clrovf) he nofun nofun⟩

/-! ### Cleared masks -/

/-- No word of a buffer whose mask is cleared can be read; `QM` counts only for its own addresses (R67, R70, R71). -/
theorem readWord_of_cleared {e : Engine} {a : Nat} (h1 : 0x100 ≤ a) (h2 : a < 0x2C0)
    (hqmm : a < 0x200 → e.qmm = 0#64) (hsbm : e.sbm = 0#16) (hcbm : e.cbm = 0#16) (hpbv : e.pbv = false) :
    readWord e a = none := by
  by_cases h4 : a % 4 = 0
  swap
  · rw [readWord, region_misaligned h4]
  rcases buffer_address h4 h1 h2 with ⟨i, rfl⟩ | ⟨w, rfl⟩ | ⟨w, rfl⟩ | ⟨w, rfl⟩
  · simp [readWord_qm, hqmm (by omega)]
  · simp [readWord_sb, hsbm]
  · simp [readWord_cb, hcbm]
  · simp [readWord_pb, hpbv]

/-- A matrix with no entry written is unset at index 0 (R253). -/
theorem matrixFault_of_cleared {e : Engine} (h : e.qmm = 0#64) : matrixFault e = some (.qmUnset, 0#32) := by
  have hlow : lowestClear e.qmm = some 0 :=
    (lowestClear_eq_some _ _).2 ⟨by simp [h], fun j hj => absurd hj (Fin.not_lt_zero j)⟩
  rw [matrixFault, hlow]
  rfl

/-- FWD with a matrix that cannot be used raises the fault of the matrix (R150, R260). -/
theorem exec_fwd_of_matrixFault {s : State} {c : Cause} {v : Word} (he : s.eng.err = false)
    (hm : matrixFault s.eng = some (c, v)) :
    exec .fwd s = .next (after s (.write .error) (faultRecord s.eng c v)) := by
  have hf : forwardFault s.eng = some (c, v) := by rw [forwardFault, hm]
  show execFwd s = _
  rw [execFwd, gated_of_not_err he, hf]
  rfl

/-- BWD with a matrix that cannot be used raises the fault of the matrix (R180, R260). -/
theorem exec_bwd_of_matrixFault {s : State} {c : Cause} {v : Word} (he : s.eng.err = false)
    (hm : matrixFault s.eng = some (c, v)) :
    exec .bwd s = .next (after s (.write .error) (faultRecord s.eng c v)) := by
  have hf : backwardFault s.eng = some (c, v) := by rw [backwardFault, hm]
  show execBwd s = _
  rw [execBwd, gated_of_not_err he, hf]
  rfl

/-- An instance agrees with itself (R45). -/
theorem Engine.Agree.refl (e : Engine) : e.Agree e where
  sbm := rfl
  cbm := rfl
  pbv := rfl
  qmm := rfl
  err := rfl
  ovf := rfl
  cause := rfl
  info := rfl
  qm := fun _ _ => rfl
  sb := fun _ _ => rfl
  cb := fun _ _ => rfl
  pb := fun _ => rfl

/-- Settles O28: the three masks are cleared, and the addresses from 0x200 on are words of their buffers. -/
theorem flushInvalidatesBlockBuffers : Obligations.FlushInvalidatesBlockBuffers := by
  intro s
  refine ⟨fun he => ⟨_, gated_of_not_err he, rfl, fun a h1 h2 => exec_rd_none ?_⟩,
    fun he => exec_toInstr_of_err (c := .flush) he nofun nofun⟩
  have hbuffer : 0x100 ≤ a := by omega
  exact readWord_of_cleared hbuffer h2 (fun hqm => absurd hqm h1.not_gt) rfl rfl rfl

/-- Every reset leaves the guards, flags and fault record of the reset table (R290). -/
theorem resetGuards_afterReset (n : Nat) : ResetGuards (Engine.afterReset n) :=
  ⟨rfl, rfl, rfl, rfl, rfl, rfl, rfl, rfl⟩

/-- Settles O29: SRST makes the state of the reset input, in which all masks are cleared. -/
theorem srstResets : Obligations.SrstResets := by
  intro s
  have hm : matrixFault (Engine.afterReset s.freeIx) = some (.qmUnset, 0#32) := matrixFault_of_cleared rfl
  refine ⟨_, rfl, rfl, rfl, resetGuards_afterReset s.freeIx, ?_, ?_, ?_, ?_⟩
  · exact fun a h1 h2 => exec_rd_none (readWord_of_cleared h1 h2 (fun _ => rfl) rfl rfl rfl)
  · exact ⟨_, step_reset rfl, Engine.Agree.refl _⟩
  · exact exec_fwd_of_matrixFault rfl hm
  · exact exec_bwd_of_matrixFault rfl hm

end Sys2Proof.Machine
end

section
/-! PROOFS. The two ways to fail of 60_exceptions.md: the five fault causes, each with its `INFO` (O20 to O24), the
list of refusals (O17), and that an ERROR is one or the other (O35). -/

namespace Sys2Proof.Machine
open Sys2Proof.Spec

/-! ### ILLEGAL_CMD -/

/-- The words of the commands: bits 31:8 are 0, and bits 7:0 are at most 0x05, or 0x0F (R102). -/
theorem encodeCommand_bytes (c : Command) :
    (encodeCommand c).extractLsb' 8 24 = 0#24 ∧
      (((encodeCommand c).extractLsb' 0 8).toNat ≤ 0x05 ∨ ((encodeCommand c).extractLsb' 0 8).toNat = 0x0F) := by
  cases c <;> decide

/-- Settles O20: such a word is the word of no command, as its bytes show. -/
theorem illegalCommandFaults : Obligations.IllegalCommandFaults := by
  intro d s he hd
  refine writeCmd_of_illegal he (decodeCommand_eq_none.2 ?_)
  rintro c rfl
  obtain ⟨hhigh, hlow⟩ := encodeCommand_bytes c
  rcases hd with hd | hd
  · exact hd hhigh
  · omega

/-! ### QM_UNSET and QM_ZERO -/

/-- The lowest index not written is what the matrix check reports, whatever the entries are (R253). -/
theorem matrixFault_of_unset {e : Engine} {i : Fin 64} (hi : e.qmm.getLsbD i = false)
    (hlow : ∀ j : Fin 64, j < i → e.qmm.getLsbD j = true) :
    matrixFault e = some (.qmUnset, BitVec.ofNat 32 i.val) := by
  rw [matrixFault, (lowestClear_eq_some _ i).2 ⟨hi, hlow⟩]

/-- With all entries written, the lowest index of a zero entry is what the matrix check reports (R254). -/
theorem matrixFault_of_zero {e : Engine} {i : Fin 64} (hm : e.qmm = BitVec.allOnes 64) (hi : e.qm[i] = 0#16)
    (hlow : ∀ j : Fin 64, j < i → e.qm[j] ≠ 0#16) :
    matrixFault e = some (.qmZero, BitVec.ofNat 32 i.val) := by
  rw [matrixFault, (lowestClear_eq_none _).2 hm, (lowestZero_eq_some _ i).2 ⟨hi, hlow⟩]

/-- Settles O21: the written bits are the first thing both commands check. -/
theorem qmUnsetFaults : Obligations.QmUnsetFaults := by
  intro s i he hi hlow
  have hm := matrixFault_of_unset hi hlow
  exact ⟨exec_fwd_of_matrixFault he hm, exec_bwd_of_matrixFault he hm⟩

/-- Settles O22: the entries are the second thing both commands check. -/
theorem qmZeroFaults : Obligations.QmZeroFaults := by
  intro s i he hfull hi hlow
  have hm := matrixFault_of_zero hfull hi hlow
  exact ⟨exec_fwd_of_matrixFault he hm, exec_bwd_of_matrixFault he hm⟩

/-! ### SB_INCOMPLETE and CB_INCOMPLETE -/

/-- Settles O23: a good matrix passes the check before, and the lowest clear bit of `SBM` is reported. -/
theorem sbIncompleteFaults : Obligations.SbIncompleteFaults := by
  intro s w he hq hw hlow
  have hf : forwardFault s.eng = some (.sbIncomplete, BitVec.ofNat 32 w.val) := by
    rw [forwardFault, (matrixFault_eq_none _).2 hq, (lowestClear_eq_some _ w).2 ⟨hw, hlow⟩]
  show execFwd s = _
  rw [execFwd, gated_of_not_err he, hf]
  rfl

/-- Settles O24: a good matrix passes the check before, and the lowest clear bit of `CBM` is reported. -/
theorem cbIncompleteFaults : Obligations.CbIncompleteFaults := by
  intro s w he hq hw hlow
  have hf : backwardFault s.eng = some (.cbIncomplete, BitVec.ofNat 32 w.val) := by
    rw [backwardFault, (matrixFault_eq_none _).2 hq, (lowestClear_eq_some _ w).2 ⟨hw, hlow⟩]
  show execBwd s = _
  rw [execBwd, gated_of_not_err he, hf]
  rfl

/-! ### The list of refusals -/

/-- A read of the list of R257 is refused. -/
theorem exec_rd_of_refused {s : State} {a : Nat} (h : ReadRefused s.eng a) :
    exec (.rd a) s = .next (after s (.read 0#32 .error) s.eng) := by
  have unmapped hu := (unmappedTransactionsRefused a 0#32 s hu).1
  rcases h with h | h | h | h | ⟨i, rfl, hv⟩ | ⟨w, rfl, hv⟩ | ⟨w, rfl, hv⟩ | ⟨w, rfl, hv⟩
  · exact unmapped (.inr (.inr h))
  · exact (misalignedTransactionsRefused a 0#32 s h).1
  · exact unmapped (.inl h)
  · exact unmapped (.inr (.inl h))
  · exact exec_rd_none ((readWord_qm s.eng i).trans (if_neg (Bool.eq_false_iff.1 hv)))
  · exact exec_rd_none ((readWord_sb s.eng w).trans (if_neg (Bool.eq_false_iff.1 hv)))
  · exact exec_rd_none ((readWord_cb s.eng w).trans (if_neg (Bool.eq_false_iff.1 hv)))
  · exact exec_rd_none ((readWord_pb s.eng w).trans (if_neg (Bool.eq_false_iff.1 hv)))

/-- A read outside the list of R257 is of a control register, or of a valid entry or word of a buffer. -/
theorem exec_rd_of_not_refused {s : State} {a : Nat} (h : ¬ ReadRefused s.eng a) :
    ∃ x, exec (.rd a) s = .next (after s (.read x .okay) s.eng) := by
  simp only [ReadRefused, not_or, not_exists, not_and, ne_eq, not_not, Bool.not_eq_false] at h
  obtain ⟨hwin, h4, hlow, hhigh, hqm, hsb, hcb, hpb⟩ := h
  by_cases hctl : a ≤ 0x020
  · obtain ⟨x, -, hx⟩ := controlRegisterReads a s h4 hctl
    exact ⟨x, hx⟩
  rcases buffer_address h4 (by omega) (by omega) with ⟨i, rfl⟩ | ⟨w, rfl⟩ | ⟨w, rfl⟩ | ⟨w, rfl⟩
  · exact ⟨_, exec_rd_some ((readWord_qm s.eng i).trans (if_pos (hqm i rfl)))⟩
  · exact ⟨_, exec_rd_some ((readWord_sb s.eng w).trans (if_pos (hsb w rfl)))⟩
  · exact ⟨_, exec_rd_some ((readWord_cb s.eng w).trans (if_pos (hcb w rfl)))⟩
  · exact ⟨_, exec_rd_some ((readWord_pb s.eng w).trans (if_pos (hpb w rfl)))⟩

/-- A write of the list of R257 is refused. -/
theorem exec_wr_of_refused {s : State} {a : Nat} {d : Word} (h : WriteRefused s.eng a d) :
    exec (.wr a d) s = .next (after s (.write .error) s.eng) := by
  have unmapped hu := (unmappedTransactionsRefused a d s hu).2
  rcases h with h | h | h | h | h | ⟨w, rfl⟩ | ⟨i, rfl, hd⟩ | ⟨rfl, he, h3, hF⟩
  · exact unmapped (.inr (.inr h))
  · exact (misalignedTransactionsRefused a d s h).2
  · exact unmapped (.inl h)
  · exact unmapped (.inr (.inl h))
  · exact readOnlyWritesRefused a d s (.inl h)
  · exact readOnlyWritesRefused _ d s (.inr (by omega))
  · exact (qmWriteStoresOrRefuses i d s).1 hd
  · exact writeCmd_of_err he h3 hF

/-- A write to CMD outside the list of R257 completes, or enters the fault state. -/
theorem writeCmd_of_not_refused {s : State} {d : Word} (h : s.eng.err = true → d = 0x3#32 ∨ d = 0xF#32) :
    ∃ t, writeCmd d s = .next t ∧
      (t.trace = .write .okay :: s.trace ∨
        t.trace = .write .error :: s.trace ∧ s.eng.err = false ∧ t.eng.err = true) := by
  cases he : s.eng.err with
  | true => rcases h he with rfl | rfl <;> exact ⟨_, rfl, .inl rfl⟩
  | false =>
    rcases writeCmd_completes_or_fails d s with ⟨t, hx, htr, -⟩ | ⟨e, hx, he'⟩
    · exact ⟨_, hx, .inl (congrArg _ htr)⟩
    · exact ⟨_, hx, .inr ⟨rfl, rfl, he'⟩⟩

/-- A write outside the list of R257 is to CMD, or stores a word in `QM`, `SB` or `CB`. -/
theorem exec_wr_of_not_refused {s : State} {a : Nat} {d : Word} (h : ¬ WriteRefused s.eng a d) :
    ∃ t, exec (.wr a d) s = .next t ∧
      (t.trace = .write .okay :: s.trace ∨
        t.trace = .write .error :: s.trace ∧ s.eng.err = false ∧ t.eng.err = true) := by
  simp only [WriteRefused, not_or, not_exists, not_and, ne_eq, not_not] at h
  obtain ⟨hwin, h4, hlow, hhigh, hctl, hpb, hqm, hcmd⟩ := h
  rcases Nat.eq_zero_or_pos a with rfl | h0
  · exact writeCmd_of_not_refused fun he => or_iff_not_imp_left.2 (hcmd rfl he)
  rcases buffer_address h4 (by omega) (by omega) with ⟨i, rfl⟩ | ⟨w, rfl⟩ | ⟨w, rfl⟩ | ⟨w, rfl⟩
  · obtain ⟨qm, qmm, hx, -⟩ := (qmWriteStoresOrRefuses i d s).2 (hqm i rfl)
    exact ⟨_, hx, .inl rfl⟩
  · exact ⟨_, exec_wr_some (storeWord_sb s.eng w d), .inl rfl⟩
  · exact ⟨_, exec_wr_some (storeWord_cb s.eng w d), .inl rfl⟩
  · exact absurd rfl (hpb w)

/-- Settles O17: reads and writes, on the list and off it. -/
theorem refusalsAreTheListedOnes : Obligations.RefusalsAreTheListedOnes := fun _ _ _ =>
  ⟨exec_rd_of_refused, exec_rd_of_not_refused, exec_wr_of_refused, exec_wr_of_not_refused⟩

/-! ### Refusals and fault entries -/

/-- A coherent fault entry names a cause (R33). -/
theorem cause_ne_none_of_coherent {e : Engine} {c : Cause} {v : Word} (h : (e.faulted c v).coherent = true) :
    c ≠ .none := by
  rintro rfl
  simp [Engine.coherent] at h

/-- A write to CMD completes, or is refused, or enters a fault from outside the fault state (R104, R251). -/
theorem writeCmd_outcome (d : Word) (s : State) :
    (∃ t, writeCmd d s = writeOkay t ∧ t.trace = s.trace) ∨ writeCmd d s = refuseWrite s ∨
    ∃ c v, c ≠ .none ∧ s.eng.err = false ∧ writeCmd d s = raiseFault c v s := by
  rcases writeCmd_cases d s with ⟨-, -, -, h⟩ | ⟨-, h⟩ | ⟨-, h⟩ | ⟨he, hd, h⟩ | ⟨-, -, h⟩ |
    ⟨c, v, he, -, hf, h⟩ | ⟨-, -, -, h⟩ | ⟨c, v, he, -, hf, h⟩ | ⟨-, -, -, h⟩ | ⟨-, -, h⟩ | ⟨-, -, h⟩
  · exact .inr (.inl h)
  · exact .inl ⟨_, h, rfl⟩
  · exact .inl ⟨_, h, rfl⟩
  · exact .inr (.inr ⟨.illegalCmd, d, nofun, he, h⟩)
  · exact .inl ⟨_, h, rfl⟩
  · exact .inr (.inr ⟨c, v, cause_ne_none_of_coherent (coherent_faulted_of_forwardFault hf), he, h⟩)
  · exact .inl ⟨_, h, rfl⟩
  · exact .inr (.inr ⟨c, v, cause_ne_none_of_coherent (coherent_faulted_of_backwardFault hf), he, h⟩)
  · exact .inl ⟨_, h, rfl⟩
  · exact .inl ⟨_, h, rfl⟩
  · exact .inl ⟨_, h, rfl⟩

/-- An operation that puts a word on CMD writes to CMD (R111). -/
theorem writesCmd_of_word {i : Instr} {d : Word}
    (h : i = .wr 0 d ∨ ∃ c : Command, i = c.toInstr ∧ d = encodeCommand c) : WritesCmd i := by
  rcases h with rfl | ⟨c, rfl, -⟩
  · exact .inr ⟨d, rfl⟩
  · exact .inl ⟨c, rfl⟩

/-- The response in the trace is the one that was given. -/
theorem response_eq_of_respond {s u : State} {r r' : Response} (hu : u.trace = s.trace)
    (h : (u.respond r').trace = r :: s.trace) : r' = r := by
  rw [State.respond_trace, hu] at h
  exact (List.cons.inj h).1

/-- Settles O35: an operation answers a read, stores a word, is refused, or writes to CMD; OKAY answers are excluded. -/
theorem errorIsRefusalOrFault : Obligations.ErrorIsRefusalOrFault := by
  intro i s t r hx htr hr
  rcases exec_cases i s with ⟨a, rfl, -⟩ | ⟨a, d, e, -, -, -, h⟩ | ⟨a, d, -, -, -, h⟩ | ⟨d, hi, h⟩
  · obtain ⟨x, r', h0, h⟩ := exec_rd_answer s.eng a
    cases hx.symm.trans (h s rfl)
    obtain rfl : .read x r' = r := (List.cons.inj htr).1
    refine .inl ⟨rfl, fun y z hyz => ?_⟩
    cases hyz
    exact h0 hr
  · cases hx.symm.trans h
    cases response_eq_of_respond (s := s) rfl htr
    cases hr
  · cases hx.symm.trans h
    cases response_eq_of_respond (s := s) rfl htr
    exact .inl ⟨rfl, nofun⟩
  · rcases writeCmd_outcome d s with ⟨u, hw, hu⟩ | hw | ⟨c, v, hc, he, hw⟩ <;> cases hx.symm.trans (h.trans hw)
    · cases response_eq_of_respond hu htr
      cases hr
    · cases response_eq_of_respond (s := s) rfl htr
      exact .inl ⟨rfl, nofun⟩
    · cases response_eq_of_respond (s := s) rfl htr
      exact .inr ⟨c, v, hc, writesCmd_of_word hi, he, rfl⟩

end Sys2Proof.Machine
end

section
/-! PROOFS. Resets and hazards of 70_reset_and_hazards.md: agreement of two machines is kept by every step (O42), and
from it what a reset leaves (O43) and what the host sees of it (O44); that every transaction answers (O34), and what
a step does when there is none (O47). -/

namespace Sys2Proof.Machine
open Sys2Proof.Spec

/-! ### Agreement on whole buffers -/

/-- Byte buffers that agree on the valid words are equal when all words are valid (R28). -/
theorem block_eq_of_full {v u : Block} {m : BitVec 16} (hm : m = BitVec.allOnes 16)
    (h : ∀ i : Fin 64, m.getLsbD (i.val / 4) = true → v[i] = u[i]) : v = u := by
  ext1 i hi
  refine h ⟨i, hi⟩ ?_
  rw [hm, BitVec.getLsbD_allOnes, decide_eq_true_iff]
  exact Nat.div_lt_of_lt_mul hi

/-- Matrices that agree on the written entries are equal when all entries are written (R28). -/
theorem matrix_eq_of_full {v u : Matrix} {m : BitVec 64} (hm : m = BitVec.allOnes 64)
    (h : ∀ i : Fin 64, m.getLsbD i = true → v[i] = u[i]) : v = u := by
  ext1 i hi
  refine h ⟨i, hi⟩ ?_
  rw [hm, BitVec.getLsbD_allOnes, decide_eq_true_iff]
  exact hi

/-! ### Agreement through the operations on an instance -/

/-- After a reset the guards hide every buffer, so any two reset instances agree (R290, R292). -/
theorem Engine.Agree.of_resetGuards {a b : Engine} (ha : ResetGuards a) (hb : ResetGuards b) : a.Agree b := by
  obtain ⟨herr, hovf, hcause, hinfo, hsbm, hcbm, hpbv, hqmm⟩ := ha
  obtain ⟨herr', hovf', hcause', hinfo', hsbm', hcbm', hpbv', hqmm'⟩ := hb
  exact {
    sbm := hsbm.trans hsbm'.symm
    cbm := hcbm.trans hcbm'.symm
    pbv := hpbv.trans hpbv'.symm
    qmm := hqmm.trans hqmm'.symm
    err := herr.trans herr'.symm
    ovf := hovf.trans hovf'.symm
    cause := hcause.trans hcause'.symm
    info := hinfo.trans hinfo'.symm
    qm := fun i hi => by simp [hqmm] at hi
    sb := fun i hi => by simp [hsbm] at hi
    cb := fun i hi => by simp [hcbm] at hi
    pb := fun hv => by simp [hpbv] at hv }

theorem Engine.Agree.afterReset (n m : Nat) : (Engine.afterReset n).Agree (Engine.afterReset m) :=
  .of_resetGuards (resetGuards_afterReset n) (resetGuards_afterReset m)

section
variable {a b : Engine} (h : a.Agree b)
include h

theorem Engine.Agree.faulted (c : Cause) (v : Word) : (a.faulted c v).Agree (b.faulted c v) :=
  { h with err := rfl, cause := rfl, info := rfl }

theorem Engine.Agree.returned : a.returned.Agree b.returned :=
  { h with err := rfl, cause := rfl, info := rfl }

theorem Engine.Agree.clearOvf : a.clearOvf.Agree b.clearOvf := { h with ovf := rfl }

theorem Engine.Agree.flushed : a.flushed.Agree b.flushed :=
  { h with
    sbm := rfl
    cbm := rfl
    pbv := rfl
    sb := fun i hi => by simp at hi
    cb := fun i hi => by simp at hi
    pb := fun hv => by simp at hv }

/-- FWD reads `SB` and `QM` once all of both is valid, so its outputs are the same (R150, R292). -/
theorem Engine.Agree.forward (hf : forwardFault a = none) : a.forward.Agree b.forward := by
  obtain ⟨hqmm, -, hsbm⟩ := (forwardFault_eq_none a).1 hf
  have hsb : a.sb = b.sb := block_eq_of_full hsbm h.sb
  have hqm : a.qm = b.qm := matrix_eq_of_full hqmm h.qm
  exact { h with
    sbm := rfl
    cbm := rfl
    ovf := by rw [Engine.forward_ovf, Engine.forward_ovf, h.ovf, hsb, hqm]
    sb := fun i hi => by simp at hi
    cb := fun i _ => by rw [Engine.forward_cb, Engine.forward_cb, hsb, hqm] }

/-- BWD reads `CB` and `QM` once all of both is valid, so its outputs are the same (R180, R292). -/
theorem Engine.Agree.backward (hf : backwardFault a = none) : a.backward.Agree b.backward := by
  obtain ⟨hqmm, -, hcbm⟩ := (backwardFault_eq_none a).1 hf
  have hcb : a.cb = b.cb := block_eq_of_full hcbm h.cb
  have hqm : a.qm = b.qm := matrix_eq_of_full hqmm h.qm
  exact { h with
    cbm := rfl
    pbv := rfl
    cb := fun i hi => by simp at hi
    pb := fun _ => by rw [Engine.backward_pb, Engine.backward_pb, hcb, hqm] }

end

/-! ### Agreement of results -/

/-- Two results are the same outcome with states that agree; neither is a refusal of the model. -/
inductive Result.Agree : Result → Result → Prop
  | next {s t : State} (h : s.Agree t) : Result.Agree (.next s) (.next t)
  | fault (f : Fault) : Result.Agree (.fault f) (.fault f)

theorem Result.Agree.outcome {x y : Result} (h : Result.Agree x y) :
    (∀ s, x = .next s → ∃ t, y = .next t ∧ s.Agree t) ∧ (∀ f, x = .fault f → y = .fault f) ∧
      ∀ r, x ≠ .refused r := by
  cases h with
  | next h => exact ⟨fun s hs => ⟨_, rfl, Host.Outcome.next.inj hs ▸ h⟩, nofun, nofun⟩
  | fault f => exact ⟨nofun, fun _ hf => hf, nofun⟩

section
variable {s t : State} (h : s.Agree t)
include h

theorem State.Agree.respond (r : Response) : (s.respond r).Agree (t.respond r) :=
  ⟨h.eng, h.pending, congrArg (r :: ·) h.trace⟩

theorem State.Agree.withEng {a b : Engine} (hab : a.Agree b) :
    State.Agree { s with eng := a } { t with eng := b } := ⟨hab, h.pending, h.trace⟩

theorem State.Agree.resetCore : s.resetCore.Agree t.resetCore :=
  ⟨Engine.Agree.afterReset s.freeIx t.freeIx, h.pending, h.trace⟩

theorem writeOkay_agree : Result.Agree (writeOkay s) (writeOkay t) := .next (h.respond _)

theorem refuseWrite_agree : Result.Agree (refuseWrite s) (refuseWrite t) := .next (h.respond _)

theorem raiseFault_agree (c : Cause) (v : Word) : Result.Agree (raiseFault c v s) (raiseFault c v t) :=
  .next ((h.withEng (h.eng.faulted c v)).respond _)

/-- Machines that agree pass the guard of a gated command alike (R264). -/
theorem gated_agree {x y : Result} (hxy : Result.Agree x y) :
    Result.Agree (if s.eng.err then refuseWrite s else x)
      (if t.eng.err then refuseWrite t else y) := by
  rw [← h.eng.err]
  split
  · exact refuseWrite_agree h
  · exact hxy

/-! ### Agreement through the operations -/

theorem execFwd_agree : Result.Agree (execFwd s) (execFwd t) := by
  refine gated_agree h ?_
  rw [← h.eng.forwardFault_eq]
  cases hf : forwardFault s.eng with
  | some f => exact raiseFault_agree h f.1 f.2
  | none => exact writeOkay_agree (h.withEng (h.eng.forward hf))

theorem execBwd_agree : Result.Agree (execBwd s) (execBwd t) := by
  refine gated_agree h ?_
  rw [← h.eng.backwardFault_eq]
  cases hf : backwardFault s.eng with
  | some f => exact raiseFault_agree h f.1 f.2
  | none => exact writeOkay_agree (h.withEng (h.eng.backward hf))

theorem exec_toInstr_agree (c : Command) : Result.Agree (exec c.toInstr s) (exec c.toInstr t) := by
  cases c with
  | nop => exact gated_agree h (writeOkay_agree h)
  | fwd => exact execFwd_agree h
  | bwd => exact execBwd_agree h
  | clrerr => exact writeOkay_agree (h.withEng h.eng.returned)
  | clrovf => exact gated_agree h (writeOkay_agree (h.withEng h.eng.clearOvf))
  | flush => exact gated_agree h (writeOkay_agree (h.withEng h.eng.flushed))
  | srst => exact writeOkay_agree h.resetCore

/-- A word written to CMD is a command, or is illegal, in both machines alike (R104). -/
theorem writeCmd_agree (d : Word) : Result.Agree (writeCmd d s) (writeCmd d t) := by
  cases hd : decodeCommand d with
  | some c =>
    rw [writeCmd_of_decode hd, writeCmd_of_decode hd]
    exact exec_toInstr_agree h c
  | none =>
    rw [writeCmd, writeCmd, hd]
    exact gated_agree h (raiseFault_agree h .illegalCmd d)

/-- What a read answers depends on `readWord` alone (R63, R292). -/
theorem exec_rd_agree (a : Nat) : Result.Agree (exec (.rd a) s) (exec (.rd a) t) := by
  obtain ⟨d, r, -, hx⟩ := exec_rd_answer s.eng a
  rw [hx s rfl, hx t (h.eng.readWord_eq a).symm]
  exact .next (h.respond _)

theorem exec_wr_agree (a : Nat) (d : Word) : Result.Agree (exec (.wr a d) s) (exec (.wr a d) t) := by
  rcases eq_or_ne a 0 with rfl | h0
  · exact writeCmd_agree h d
  rcases h.eng.storeWord_agree a d with ⟨hs, ht⟩ | ⟨e, e', hs, ht, he⟩
  · rw [exec_wr_none h0 hs, exec_wr_none h0 ht]
    exact refuseWrite_agree h
  · rw [exec_wr_some hs, exec_wr_some ht]
    exact writeOkay_agree (h.withEng he)

theorem exec_agree (i : Instr) : Result.Agree (exec i s) (exec i t) := by
  cases i with
  | rd a => exact exec_rd_agree h a
  | wr a d => exact exec_wr_agree h a d
  | nop => exact exec_toInstr_agree h .nop
  | fwd => exact exec_toInstr_agree h .fwd
  | bwd => exact exec_toInstr_agree h .bwd
  | clrerr => exact exec_toInstr_agree h .clrerr
  | clrovf => exact exec_toInstr_agree h .clrovf
  | flush => exact exec_toInstr_agree h .flush
  | srst => exact exec_toInstr_agree h .srst

/-- Machines that agree accept the same input, and do with it the same (R292, R309). -/
theorem step_agree : Result.Agree (step s) (step t) := by
  have accepted (rest : List Input) : State.Agree { s with pending := rest } { t with pending := rest } :=
    ⟨h.eng, rfl, h.trace⟩
  match hs : s.pending with
  | [] =>
    rw [step_idle hs, step_idle (h.pending ▸ hs)]
    exact .next h
  | .reset :: rest =>
    rw [step_reset hs, step_reset (h.pending ▸ hs)]
    exact .next (accepted rest).resetCore
  | .transfer q :: rest =>
    rw [step_transfer hs, step_transfer (h.pending ▸ hs)]
    cases decodeRequest q with
    | ok i => exact exec_agree (accepted rest) i
    | error _ => exact .fault _

end

/-! ### The statements -/

/-- Settles O42: every operation reads only entries whose valid bit is 1, and on those the two machines agree. -/
theorem unspecifiedBytesUnobservable : Obligations.UnspecifiedBytesUnobservable :=
  fun _ _ h => (step_agree h).outcome

/-- Settles O34: the list of effects of an operation is complete. -/
theorem everyTransactionAnswers : Obligations.EveryTransactionAnswers := by
  intro i s
  obtain ⟨t, r, hx, htr, hp, -⟩ := exec_effect i s
  exact ⟨t, r, hx, htr, hp⟩

/-- Settles O43: both are the one reset, and its guards hide what the buffers hold. -/
theorem srstIsReset : Obligations.SrstIsReset := by
  intro s rest hp
  have guards := resetGuards_afterReset s.freeIx
  have powerOn : ResetGuards State.reset.eng := ⟨rfl, rfl, rfl, rfl, rfl, rfl, rfl, rfl⟩
  exact ⟨_, _, step_reset hp, rfl, guards, guards, .refl _, .of_resetGuards guards powerOn, rfl, rfl, rfl⟩

/-- After a reset every control register but ID reads 0 (R302). -/
theorem ctlRead_of_resetGuards {e : Engine} (h : ResetGuards e) {r : CtlReg} (hr : r ≠ .id) :
    ctlRead e r = 0#32 := by
  obtain ⟨herr, hovf, hcause, hinfo, hsbm, hcbm, hpbv, hqmm⟩ := h
  cases r with
  | status => simp [ctlRead, Engine.status, Engine.qmv, Engine.sbv, Engine.cbv, fullMask, herr, hovf, hsbm, hcbm,
      hpbv, hqmm]
  | cause => rw [ctlRead, hcause]; rfl
  | info => exact hinfo
  | id => exact absurd rfl hr
  | sbmask => rw [ctlRead, hsbm]; rfl
  | cbmask => rw [ctlRead, hcbm]; rfl
  | qmmaskLo => rw [ctlRead, hqmm]; rfl
  | qmmaskHi => rw [ctlRead, hqmm]; rfl

/-- Settles O44: the values of the reset table make the registers 0, the buffers unreadable and the matrix unset. -/
theorem resetConsequences : Obligations.ResetConsequences := by
  intro s h
  have hctl {r : CtlReg} : r ≠ .id → ctlRead s.eng r = 0#32 := ctlRead_of_resetGuards h
  obtain ⟨herr, hovf, -, -, hsbm, hcbm, hpbv, hqmm⟩ := h
  have hm := matrixFault_of_cleared hqmm
  refine ⟨fun a h4 ha hid => ?_, exec_rd_offset .id s, fun a h1 h2 => ?_, herr, hovf,
    exec_fwd_of_matrixFault herr hm, exec_bwd_of_matrixFault herr hm⟩
  · rcases Nat.eq_zero_or_pos a with rfl | h0
    · exact exec_rd_some rfl
    · obtain ⟨r, rfl⟩ := control_address h4 (by omega) ha
      have hr : r ≠ .id := fun he => hid (congrArg CtlReg.offset he)
      rw [exec_rd_offset, hctl hr]
  · exact exec_rd_none (readWord_of_cleared h1 h2 (fun _ => hqmm) hsbm hcbm hpbv)

/-- A read that carries data is rejected (R108). -/
theorem decodeRequest_of_read_with_data {q : Request} (hw : q.write = false) (hd : q.data ≠ 0#32) :
    decodeRequest q = .error (.readWithData q.data) := by
  simp [decodeRequest, hw, hd]

/-- Settles O47: an empty bus gives the step nothing to accept, and a rejected request nothing to execute. -/
theorem idleAndNonTransactions : Obligations.IdleAndNonTransactions := by
  refine ⟨fun _ => step_idle, fun s q rest hp hw hd => ?_⟩
  rw [step_transfer hp, decodeRequest_of_read_with_data hw hd]

end Sys2Proof.Machine
end
